-- ==== Sys2Proof/Word.lean ====
section
/-! DEFINITION. The bit-vector types of the block: bytes, 32-bit patterns, 3-bit register indices, and the four operand widths
(spec/00_scope.md R5, R6; spec/10_state.md R16, R19). -/

namespace Sys2Proof

/-- 8-bit byte of the stream and of byte buffers (20 R30). -/
abbrev Byte := BitVec 8

/-- 32-bit pattern: a register as the resolver reads it, a displacement, an effective address (00 R5). -/
abbrev Word := BitVec 32

/-- A 3-bit register index field (10 R11). -/
abbrev RegIx := BitVec 3

/-- The 2-bit scale field of the SIB byte (30 R51). -/
abbrev ScaleBits := BitVec 2

/-- The widths an operand or a primitive may have: 1, 2, 4 or 8 bytes; no other value can be written down (10 R16, 92 D8). -/
inductive OpWidth where
  | w1
  | w2
  | w4
  | w8
deriving DecidableEq, Repr

/-- A width in bytes. -/
def OpWidth.bytes : OpWidth → Nat
  | .w1 => 1
  | .w2 => 2
  | .w4 => 4
  | .w8 => 8

/-- A width in bits. -/
def OpWidth.bits (n : OpWidth) : Nat := 8 * n.bytes

/-- Shift kind: the closed set of six tags of 10 R19; no operation of the block takes or returns one, and they have no numbers. -/
inductive ShiftKind where
  | shiftOne
  | shiftCl
  | shiftImm8
  | shl
  | shr
  | sar
deriving DecidableEq, Repr

end Sys2Proof
end

