-- ==== Sys2Proof/Config.lean ====
section
/-! DEFINITION. The fixed parameters of the block (spec/00_scope.md R5). The spec leaves no result of the block free, so there is no free
value here: what it leaves open is external state, and stands in `State` (assumption log entries 3, 4 and 6). -/

namespace Sys2Proof

/-- `CURSOR_BITS` (10 R14, 92 D4). -/
def Config.cursorBits : Nat := 32

/-- One past the last stream position, 2^CURSOR_BITS: the largest value of the cursor (10 R14). -/
def Config.streamTop : Nat := 2 ^ Config.cursorBits

/-- The smallest `address_size` a `resolve` call accepts, in bytes (10 R16, 40 R71). -/
def Config.minAddressSize : Nat := 4

/-- `PRIM_BYTES`: the width of the primitives' data port in bytes (41 R110). -/
def Config.primBytes : Nat := 8

end Sys2Proof
end

