-- ==== Sys2Proof/Syntax.lean ====
section
/-! DEFINITION. The syntax: one constructor for each of the 20 rows of spec/opcode_table.json. A form carries the fields of its ModRM and
SIB bytes that its row leaves free; its trailer (d8, d32 or a32) is stream data that its meaning reads (30 R52, 40 R74 to R87). A primitive
carries the arguments on its ports (41 R101 to R107). -/

namespace Sys2Proof

/-- The 13 addressing forms of `resolve` (30 R56) and the 7 bit primitives (30 R60). -/
inductive Instr where
  /-- RM_REG, `reg i` (R74). -/
  | rmReg (reg rm : RegIx)
  /-- RM_ABS32, `[a32]` (R76). -/
  | rmAbs32 (reg : RegIx)
  /-- RM_BASE, `[x_rm]` (R75). -/
  | rmBase (reg rm : RegIx)
  /-- RM_BASE_D8, `[x_rm + d8]` (R77). -/
  | rmBaseD8 (reg rm : RegIx)
  /-- RM_BASE_D32, `[x_rm + d32]` (R78). -/
  | rmBaseD32 (reg rm : RegIx)
  /-- SIB_ABS32, `[a32]` through a SIB byte; the scale is encoded and ignored (R82). -/
  | sibAbs32 (reg : RegIx) (scale : ScaleBits)
  /-- SIB_IDX_ABS32, `[x_index*2^scale + a32]` (R83). -/
  | sibIdxAbs32 (reg : RegIx) (scale : ScaleBits) (index : RegIx)
  /-- SIB_BASE, `[x_base]`; the scale is encoded and ignored (R80). -/
  | sibBase (reg : RegIx) (scale : ScaleBits) (base : RegIx)
  /-- SIB_BASE_IDX, `[x_base + x_index*2^scale]` (R81). -/
  | sibBaseIdx (reg : RegIx) (scale : ScaleBits) (index base : RegIx)
  /-- SIB_BASE_D8, `[x_base + d8]`; the scale is encoded and ignored (R84). -/
  | sibBaseD8 (reg : RegIx) (scale : ScaleBits) (base : RegIx)
  /-- SIB_BASE_IDX_D8, `[x_base + x_index*2^scale + d8]` (R85). -/
  | sibBaseIdxD8 (reg : RegIx) (scale : ScaleBits) (index base : RegIx)
  /-- SIB_BASE_D32, `[x_base + d32]`; the scale is encoded and ignored (R86). -/
  | sibBaseD32 (reg : RegIx) (scale : ScaleBits) (base : RegIx)
  /-- SIB_BASE_IDX_D32, `[x_base + x_index*2^scale + d32]` (R87). -/
  | sibBaseIdxD32 (reg : RegIx) (scale : ScaleBits) (index base : RegIx)
  /-- SEXT_INT, integer `sign_extend`; `n` is the source width (R101). -/
  | sextInt (value : Int) (n : OpWidth)
  /-- SEXT_BUF, byte-buffer `sign_extend`; `n` is the target width (R102). -/
  | sextBuf (buf : List Byte) (n : OpWidth)
  /-- ZEXT_INT, integer `zero_extend` (R103). -/
  | zextInt (value : Int) (n : OpWidth)
  /-- ZEXT_BUF, byte-buffer `zero_extend`; `n` is the target width (R104). -/
  | zextBuf (buf : List Byte) (n : OpWidth)
  /-- PARITY of one byte (R105). -/
  | parity (value : Int)
  /-- MSB of a pattern of `n` bytes (R106). -/
  | msb (value : Int) (n : OpWidth)
  /-- LSB; the width is accepted and does not matter (R107). -/
  | lsb (value : Int) (n : OpWidth)
deriving DecidableEq, Repr

/-- A primitive as it stands on the block's ports: the 3-bit select and the argument ports (30 R60, 41 R110). -/
structure PrimCall where
  op    : BitVec 3
  value : Int
  buf   : List Byte
  width : OpWidth
deriving DecidableEq, Repr

/-- How an instruction reaches the block: as bytes at the fetch cursor, or on the primitives' ports (30 R60, R62). -/
inductive Code where
  | stream (bytes : List Byte)
  | prim (call : PrimCall)
deriving DecidableEq, Repr

/-- The field that follows the ModRM and SIB bytes of a form (30 R52, the table's `trailer`). -/
inductive Trailer where
  | none
  | d8
  | d32
  | a32
deriving DecidableEq, Repr

end Sys2Proof
end

