-- ==== Sys2Proof/Machine/State.lean ====
section
/-! DEFINITION. The state: the external register file, stream, cursor and inputs a call works on (spec/10_state.md R11 to R16, R21), the call
on the block's input, and what the last call delivered. The block's own transients (R18) do not outlive a call and are no state (R10). -/

namespace Sys2Proof.Machine

/-- The fetch stream: (position, byte) pairs, positions strictly rising and below 2^32; an unlisted position holds no byte
(R21, R36, 93 U7; assumption log entry 3). -/
abbrev Memory := List Host.Cell

/-- The two errors a `resolve` call can end in, with what they record (60 R120, R121, R123). -/
inductive ResolveError where
  /-- UnsupportedModeError: the offending `address_size`. -/
  | unsupportedMode (addressSize : Nat)
  /-- MalformedStreamError: the position of the failing read, the size it asked for, the memory abstraction's own payload. -/
  | malformedStream (position size payload : Nat)
deriving DecidableEq, Repr

/-- The kind of an Operand Descriptor (10 R17). -/
inductive OperandKind where
  | register
  | memory
deriving DecidableEq, Repr

/-- Operand Descriptor: REGISTER(i, w) or MEMORY(a, w) (10 R17). -/
inductive OperandDescriptor where
  | register (index : RegIx) (width : OpWidth)
  | memory (address : Word) (width : OpWidth)
deriving DecidableEq, Repr

/-- What a call returns to its caller. The first two are the outcome type of `resolve` (60 R123), the others the results of the primitives
(41 R101 to R107). -/
inductive Delivery where
  /-- `Ok(descRM, descREG)`: the RM operand first, the REG operand second (40 R70). -/
  | operands (rm reg : OperandDescriptor)
  /-- `Err(...)`: the call ended in an error and returned no descriptors (60 R125). -/
  | error (e : ResolveError)
  /-- A mathematical integer (integer forms of `sign_extend` and `zero_extend`). -/
  | integer (value : Int)
  /-- A little-endian byte buffer (byte-buffer forms). -/
  | buffer (bytes : List Byte)
  /-- One bit (`parity`, `MSB`, `LSB`). -/
  | bit (b : Bool)
deriving DecidableEq, Repr

/-- A call on the block's input (40 R70, 30 R60). -/
inductive Request where
  | resolve
  | prim (call : PrimCall)
deriving DecidableEq, Repr

/-- The whole machine state, plain data. -/
structure State where
  /-- The fetch cursor, 0 to 2^32 inclusive (10 R13, R14). -/
  cursor : Nat
  /-- The eight registers (10 R11). -/
  regs : Vector Word 8
  /-- The fetch stream (10 R21). -/
  stream : Memory
  /-- (position, size) requests the memory abstraction cannot supply for reasons of its own (20 R35, R36). -/
  denied : List (Nat × Nat)
  /-- The payload the memory abstraction reports with a failing read (60 R121). -/
  report : Nat
  /-- Control input `address_size`, in bytes (10 R16). -/
  addressSize : Nat
  /-- Control input `widthA` (10 R16). -/
  widthA : OpWidth
  /-- Control input `widthB`; `none` where the caller omits it (10 R16, 40 R70). -/
  widthB : Option OpWidth
  /-- The call presented to the block; `none`: the block is idle (10 R23). -/
  request : Option Request
  /-- What the last call delivered, the caller's copy (assumption log entry 13). -/
  delivered : Option Delivery
deriving DecidableEq, Repr

/-- Reasons a step stops with a fault. There are none: the two errors of the block are outcomes of a call, delivered to the caller in the next
state, and the block is ready for a new call at once (60 R125, R126; assumption log entry 1). -/
inductive Fault where
deriving DecidableEq, Repr

/-- Reasons a step is refused: inputs the spec says a model refuses at its boundary (93 part 1, 92 D21). Each is safe: the model stops where
the spec gives no behaviour. -/
inductive Refusal where
  /-- Raised by an arm of `exec` that has no meaning yet. Safe. -/
  | notModelled (mnemonic : String)
  /-- Raised by a primitive call with `prim_op` 7, which selects nothing (R60, U2). Safe. -/
  | primOpReserved
  /-- Raised by SEXT_BUF and ZEXT_BUF on a buffer of no bytes (R102, R104 require `1 <= L`). Safe. -/
  | bufferEmpty
  /-- Raised by SEXT_BUF and ZEXT_BUF on a buffer longer than the target width (U1, D11). Safe. -/
  | bufferTooLong
  /-- Raised by ZEXT_INT on a value below `-2^(8n-1)` (R103, U14, D9). Safe. -/
  | zeroExtendBelowRange
  /-- Raised by PARITY on a value outside 0 to 255 (R105, U4). Safe. -/
  | parityNotAByte
  /-- Raised by MSB and LSB on a negative value (R106, R107, U4). Safe. -/
  | negativePattern
deriving DecidableEq, Repr

/-- The machine right after reset. The spec gives the block nothing to reset and leaves all external state open (10 R23, 70 R140, R141): no
call is presented, and every other value is a DESIGN CHOICE (unsafe; assumption log entry 6). -/
def State.reset : State where
  cursor := 0
  regs := Vector.replicate 8 0
  stream := []
  denied := []
  report := 0
  addressSize := 4
  widthA := .w4
  widthB := none
  request := none
  delivered := none

end Sys2Proof.Machine
end

