-- ==== Sys2Proof/Machine/Ops.lean ====
section
/-! DEFINITION. The shared operations: the stream, `FetchRead` (spec/20_memory.md R35), the register read (10 R11), delivering a result, and
ending a call in an error (60 R125). Every stream read and every end of a call goes through here. -/

namespace Sys2Proof.Machine

/-- What a step answers. -/
abbrev Answer := Host.Outcome State Fault Refusal

/-- The byte at a position, `none` where the stream holds none. -/
def Memory.read : Memory → Nat → Option Byte
  | [], _ => none
  | (q, b) :: rest, p => if q = p then some b else Memory.read rest p

/-- Insert or replace one byte, keeping positions rising. -/
def Memory.insert : Memory → Nat → Byte → Memory
  | [], p, b => [(p, b)]
  | (q, c) :: rest, p, b =>
    if p < q then (p, b) :: (q, c) :: rest
    else if p = q then (p, b) :: rest
    else (q, c) :: Memory.insert rest p b

/-- Place a byte in the stream, as the world outside the block does; a position at or above 2^32 does not exist (10 R14). -/
def Memory.write (m : Memory) (p : Nat) (b : Byte) : Memory :=
  if p < Config.streamTop then Memory.insert m p b else m

/-- Place a run of bytes from a position upwards. -/
def Memory.writeBytes (m : Memory) (p : Nat) : List Byte → Memory
  | [] => m
  | b :: bs => Memory.writeBytes (Memory.write m p b) (p + 1) bs

/-- Every listed position is above `low`, positions rise strictly, and all are below 2^32. -/
def Memory.wfFrom : Option Nat → Memory → Bool
  | _, [] => true
  | low, (q, _) :: rest =>
    (match low with | none => true | some l => decide (l < q)) && decide (q < Config.streamTop) && Memory.wfFrom (some q) rest

/-- The canonical form of a stream: strictly rising positions below 2^32. -/
def Memory.wf (m : Memory) : Bool := Memory.wfFrom none m

/-- The `n` bytes from position `p` on, `none` if any is missing. -/
def Memory.span (m : Memory) (p : Nat) : Nat → Option (List Byte)
  | 0 => some []
  | n + 1 =>
    match Memory.read m p, Memory.span m (p + 1) n with
    | some b, some bs => some (b :: bs)
    | _, _ => none

/-- Little-endian value of bytes, element 0 least significant (20 R31, R32). -/
def littleEndian : List Byte → Nat
  | [] => 0
  | b :: bs => b.toNat + 256 * littleEndian bs

/-- `get_eip(cursor, n)`: the bytes the memory abstraction supplies at the cursor; `none` where it cannot: the read would end beyond 2^32
(R14), it denies the request, or a byte is missing, all of which fail the read as a whole (R35, 92 D25). -/
def State.supply (s : State) (n : Nat) : Option (List Byte) :=
  if Config.streamTop < s.cursor + n then none
  else if (s.cursor, n) ∈ s.denied then none
  else s.stream.span s.cursor n

/-- The cursor moved past `n` bytes (R13). -/
def State.advance (s : State) (n : Nat) : State := { s with cursor := s.cursor + n }

/-- The presented call taken off the input (10 R10, R23). -/
def State.accept (s : State) : State := { s with request := none }

/-- A result handed to the caller. -/
def State.deliver (s : State) (d : Delivery) : State := { s with delivered := some d }

/-- `x[i]`, the 32-bit read of register `i`; it changes nothing and cannot fail (R11). -/
def State.reg (s : State) (i : RegIx) : Word := s.regs[i.toNat]'(i.isLt)

/-- The width the REG operand gets: `widthB`, by default `widthA` (R16, 40 R70). -/
def State.effectiveWidthB (s : State) : OpWidth := s.widthB.getD s.widthA

/-- TAKING AN EXCEPTION: the call ends at this point, the error is its outcome, nothing else is saved, masked or transferred (60 R125); the
cursor stays where the completed reads left it (R120, R121). -/
def raise (e : ResolveError) (s : State) : Answer := .next (s.deliver (.error e))

/-- `FetchRead(n)`: read `n` bytes at the cursor, advance past them, go on with their little-endian value; where they cannot be supplied the
call ends in MalformedStreamError, the cursor not moved (20 R35). -/
def fetchRead (n : Nat) (s : State) (go : Nat → State → Answer) : Answer :=
  match s.supply n with
  | none => raise (.malformedStream s.cursor n s.report) s
  | some bytes => go (littleEndian bytes) (s.advance n)

/-- RETURN FROM A CALL: `resolve` returns the RM descriptor at `widthA` and, second, REGISTER(REG, widthB) (40 R70, R73). -/
def returnOperands (rm : OpWidth → OperandDescriptor) (reg : RegIx) (s : State) : Answer :=
  .next (s.deliver (.operands (rm s.widthA) (.register reg s.effectiveWidthB)))

/-- The `kind` of a descriptor (10 R17). -/
def OperandDescriptor.kind : OperandDescriptor → OperandKind
  | .register _ _ => .register
  | .memory _ _ => .memory

/-- The `location` of a descriptor: a register index 0 to 7, or a 32-bit address as an unsigned number (10 R17). -/
def OperandDescriptor.location : OperandDescriptor → Nat
  | .register i _ => i.toNat
  | .memory a _ => a.toNat

/-- The `width` of a descriptor (10 R17). -/
def OperandDescriptor.width : OperandDescriptor → OpWidth
  | .register _ w => w
  | .memory _ w => w

/-- The numeric error code of an outcome: 0 no error, 1 UnsupportedModeError, 2 MalformedStreamError (60 R123). -/
def Delivery.code : Delivery → Nat
  | .error (.unsupportedMode _) => 1
  | .error (.malformedStream _ _ _) => 2
  | .operands _ _ | .integer _ | .buffer _ | .bit _ => 0

/-- An integer result at a port of `w` bits: its two's-complement pattern (41 R101, R110). -/
def portPattern (w : Nat) (value : Int) : BitVec w := BitVec.ofInt w value

/-- What the primitives' 64-bit data port carries for an integer result (41 R110). -/
def Delivery.port : Delivery → Option (BitVec (8 * Config.primBytes))
  | .integer value => some (portPattern _ value)
  | .operands _ _ | .error _ | .buffer _ | .bit _ => none

end Sys2Proof.Machine
end

