-- ==== Sys2Proof/Machine/Operands.lean ====
section
/-! DEFINITION. The operand forms: displacement and absolute reads (spec/30_encoding.md R52, R55; 40 R90), the terms of an effective address
(40 R88), and the sign and zero extension functions (41 R101 to R104). -/

namespace Sys2Proof.Machine

/-- The two MOD values that carry a displacement, the whole domain of `dispWidth` (40 R90). -/
inductive DispMod where
  | mod1
  | mod2
deriving DecidableEq, Repr

/-- MOD as a number. -/
def DispMod.mod : DispMod → Nat
  | .mod1 => 1
  | .mod2 => 2

/-- `disp_width(MOD) = 3*MOD - 2` bytes, on MOD in 1, 2 only (R90). -/
def dispWidth (m : DispMod) : Nat := 3 * m.mod - 2

/-- `sext_32` of an `8n`-bit pattern (00 R7, 30 R55). -/
def sext32 (n : Nat) (value : Nat) : Word := (BitVec.ofNat (8 * n) value).signExtend 32

/-- Steps 3c and 4b: read the displacement and go on with it sign-extended to 32 bits (40 R89). -/
def readDisp (m : DispMod) (s : State) (go : Word → State → Answer) : Answer :=
  fetchRead (dispWidth m) s (fun d t => go (sext32 (dispWidth m) d) t)

/-- Steps 3a and 4d: read the absolute 32-bit value (40 R89). -/
def readAbs32 (s : State) (go : Word → State → Answer) : Answer :=
  fetchRead 4 s (fun a t => go (BitVec.ofNat 32 a) t)

/-- `x[index] << scale`, bits shifted beyond bit 31 lost (40 R88). -/
def State.scaled (s : State) (index : RegIx) (scale : ScaleBits) : Word := s.reg index <<< scale.toNat

/-- MEMORY(a, w), for a width still to come. -/
def memoryAt (address : Word) : OpWidth → OperandDescriptor := .memory address

/-- `sign_extend`, integer form: a negative value is returned unchanged, else bit `8n-1` decides whether `2^(8n)` is subtracted (R101). -/
def signExtendInt (value : Int) (n : OpWidth) : Int :=
  if value < 0 then value
  else if value.toNat.testBit (n.bits - 1) then value - 2 ^ n.bits
  else value

/-- `zero_extend`, integer form, on `value >= -2^(8n-1)`: identity on an unsigned integer, else the `8n`-bit pattern (R103). -/
def zeroExtendInt (value : Int) (n : OpWidth) : Int :=
  if 0 ≤ value then value else value + 2 ^ n.bits

/-- The most significant byte of a little-endian buffer is its last element; the fill repeats its bit 7 (R102). -/
def signFill (buf : List Byte) : Byte :=
  if 0x80 ≤ (buf.getLastD 0).toNat then 0xFF else 0x00

/-- `sign_extend`, byte-buffer form, `1 <= L <= n` (R102). -/
def signExtendBuf (buf : List Byte) (n : OpWidth) : List Byte :=
  buf ++ List.replicate (n.bytes - buf.length) (signFill buf)

/-- `zero_extend`, byte-buffer form, `1 <= L <= n` (R104). -/
def zeroExtendBuf (buf : List Byte) (n : OpWidth) : List Byte :=
  buf ++ List.replicate (n.bytes - buf.length) 0x00

/-- A buffer-form call inside its domain `1 <= L <= n` goes on; outside it is refused at the boundary (R102, R104, 92 D11). -/
def withBuffer (buf : List Byte) (n : OpWidth) (go : Answer) : Answer :=
  if buf.length = 0 then .refused .bufferEmpty
  else if n.bytes < buf.length then .refused .bufferTooLong
  else go

end Sys2Proof.Machine
end

