-- ==== Sys2Proof/Machine/NoSib.lean ====
section
/-! DEFINITION. The five forms without a SIB byte (spec/40_operand_resolver.md R74 to R78). Each meaning starts with the cursor just after the
ModRM byte, which the shared start of `resolve` has read (Machine/Resolve.lean, R71, R72). -/

namespace Sys2Proof.Machine

/-- RM_REG (R74): no further byte, no register read. -/
def execRmReg (reg rm : RegIx) (s : State) : Answer :=
  returnOperands (.register rm) reg s

/-- RM_BASE (R75). -/
def execRmBase (reg rm : RegIx) (s : State) : Answer :=
  returnOperands (memoryAt (s.reg rm)) reg s

/-- RM_ABS32 (R76). -/
def execRmAbs32 (reg : RegIx) (s : State) : Answer :=
  readAbs32 s fun a32 t => returnOperands (memoryAt a32) reg t

/-- RM_BASE_D8 (R77): the register is read before the displacement. -/
def execRmBaseD8 (reg rm : RegIx) (s : State) : Answer :=
  let addr := s.reg rm
  readDisp .mod1 s fun d8 t => returnOperands (memoryAt (addr + d8)) reg t

/-- RM_BASE_D32 (R78): the register is read before the displacement. -/
def execRmBaseD32 (reg rm : RegIx) (s : State) : Answer :=
  let addr := s.reg rm
  readDisp .mod2 s fun d32 t => returnOperands (memoryAt (addr + d32)) reg t

end Sys2Proof.Machine
end

