-- ==== Sys2Proof/Machine/Flags.lean ====
section
/-! DEFINITION. The flag values the block computes for its executors; it holds and writes no flag (spec/10_state.md R15; 41 R105 to R107). -/

namespace Sys2Proof.Machine

/-- `parity`: 1 exclusive-or all eight bits, so true where the number of 1 bits is even (R105). -/
def parityEven (b : Byte) : Bool :=
  true ^^ b.getLsbD 7 ^^ b.getLsbD 6 ^^ b.getLsbD 5 ^^ b.getLsbD 4 ^^ b.getLsbD 3 ^^ b.getLsbD 2 ^^ b.getLsbD 1 ^^ b.getLsbD 0

/-- `MSB(value, n)`: bit `8n-1` of a non-negative value; higher bits are ignored (R106). -/
def msbOf (value : Nat) (n : OpWidth) : Bool := value.testBit (n.bits - 1)

/-- `LSB(value, n)`: bit 0, whatever the width (R107). -/
def lsbOf (value : Nat) (_n : OpWidth) : Bool := value.testBit 0

end Sys2Proof.Machine
end

