-- ==== Sys2Proof/Machine/Primitives.lean ====
section
/-! DEFINITION. The seven bit primitives (spec/41_bit_primitives.md R100 to R107): pure functions of their arguments whose result is delivered
to the caller; no register, stream byte or cursor is touched. -/

namespace Sys2Proof.Machine

/-- SEXT_INT (R101). A value at or above `2^(8n)` is outside the contract and computed as R101 writes it (93 U3, log entry 7). -/
def execSextInt (value : Int) (n : OpWidth) (s : State) : Answer :=
  .next (s.deliver (.integer (signExtendInt value n)))

/-- SEXT_BUF (R102). -/
def execSextBuf (buf : List Byte) (n : OpWidth) (s : State) : Answer :=
  withBuffer buf n (.next (s.deliver (.buffer (signExtendBuf buf n))))

/-- ZEXT_INT (R103); a value below `-2^(8n-1)` is refused. -/
def execZextInt (value : Int) (n : OpWidth) (s : State) : Answer :=
  if value < -(2 ^ (n.bits - 1) : Int) then .refused .zeroExtendBelowRange
  else .next (s.deliver (.integer (zeroExtendInt value n)))

/-- ZEXT_BUF (R104). -/
def execZextBuf (buf : List Byte) (n : OpWidth) (s : State) : Answer :=
  withBuffer buf n (.next (s.deliver (.buffer (zeroExtendBuf buf n))))

/-- PARITY (R105); a value outside 0 to 255 is refused (93 U4). -/
def execParity (value : Int) (s : State) : Answer :=
  if 0 ≤ value ∧ value < 256 then .next (s.deliver (.bit (parityEven (BitVec.ofNat 8 value.toNat))))
  else .refused .parityNotAByte

/-- MSB (R106); a negative value is refused (93 U4). -/
def execMsb (value : Int) (n : OpWidth) (s : State) : Answer :=
  if value < 0 then .refused .negativePattern
  else .next (s.deliver (.bit (msbOf value.toNat n)))

/-- LSB (R107); a negative value is refused (93 U4). -/
def execLsb (value : Int) (n : OpWidth) (s : State) : Answer :=
  if value < 0 then .refused .negativePattern
  else .next (s.deliver (.bit (lsbOf value.toNat n)))

end Sys2Proof.Machine
end

