-- ==== Sys2Proof/Machine/Sib.lean ====
section
/-! DEFINITION. The eight forms with a SIB byte (spec/40_operand_resolver.md R79 to R87). Each meaning starts with the cursor just after the
SIB byte. The displacement is read before the index register, the absolute d32 after it (R79). -/

namespace Sys2Proof.Machine

/-- SIB_BASE (R80): the scale is ignored. -/
def execSibBase (reg : RegIx) (_scale : ScaleBits) (base : RegIx) (s : State) : Answer :=
  returnOperands (memoryAt (s.reg base)) reg s

/-- SIB_BASE_IDX (R81). -/
def execSibBaseIdx (reg : RegIx) (scale : ScaleBits) (index base : RegIx) (s : State) : Answer :=
  returnOperands (memoryAt (s.scaled index scale + s.reg base)) reg s

/-- SIB_ABS32 (R82): no register is read. -/
def execSibAbs32 (reg : RegIx) (_scale : ScaleBits) (s : State) : Answer :=
  readAbs32 s fun a32 t => returnOperands (memoryAt a32) reg t

/-- SIB_IDX_ABS32 (R83): the index register is read before the stream. -/
def execSibIdxAbs32 (reg : RegIx) (scale : ScaleBits) (index : RegIx) (s : State) : Answer :=
  let addr := s.scaled index scale
  readAbs32 s fun a32 t => returnOperands (memoryAt (addr + a32)) reg t

/-- SIB_BASE_D8 (R84). -/
def execSibBaseD8 (reg : RegIx) (_scale : ScaleBits) (base : RegIx) (s : State) : Answer :=
  readDisp .mod1 s fun d8 t => returnOperands (memoryAt (d8 + t.reg base)) reg t

/-- SIB_BASE_IDX_D8 (R85). -/
def execSibBaseIdxD8 (reg : RegIx) (scale : ScaleBits) (index base : RegIx) (s : State) : Answer :=
  readDisp .mod1 s fun d8 t => returnOperands (memoryAt (d8 + t.scaled index scale + t.reg base)) reg t

/-- SIB_BASE_D32 (R86). -/
def execSibBaseD32 (reg : RegIx) (_scale : ScaleBits) (base : RegIx) (s : State) : Answer :=
  readDisp .mod2 s fun d32 t => returnOperands (memoryAt (d32 + t.reg base)) reg t

/-- SIB_BASE_IDX_D32 (R87). -/
def execSibBaseIdxD32 (reg : RegIx) (scale : ScaleBits) (index base : RegIx) (s : State) : Answer :=
  readDisp .mod2 s fun d32 t => returnOperands (memoryAt (d32 + t.scaled index scale + t.reg base)) reg t

end Sys2Proof.Machine
end

