-- ==== Sys2Proof/Machine/Dispatch.lean ====
section
/-! DEFINITION. One arm for each of the 20 rows of spec/opcode_table.json. -/

namespace Sys2Proof.Machine

/-- The meaning of each instruction. -/
def exec (i : Instr) (s : State) : Host.Outcome State Fault Refusal :=
  match i with
  | .rmReg reg rm => Sys2Proof.Machine.execRmReg reg rm s
  | .rmAbs32 reg => Sys2Proof.Machine.execRmAbs32 reg s
  | .rmBase reg rm => Sys2Proof.Machine.execRmBase reg rm s
  | .rmBaseD8 reg rm => Sys2Proof.Machine.execRmBaseD8 reg rm s
  | .rmBaseD32 reg rm => Sys2Proof.Machine.execRmBaseD32 reg rm s
  | .sibAbs32 reg scale => Sys2Proof.Machine.execSibAbs32 reg scale s
  | .sibIdxAbs32 reg scale index => Sys2Proof.Machine.execSibIdxAbs32 reg scale index s
  | .sibBase reg scale base => Sys2Proof.Machine.execSibBase reg scale base s
  | .sibBaseIdx reg scale index base => Sys2Proof.Machine.execSibBaseIdx reg scale index base s
  | .sibBaseD8 reg scale base => Sys2Proof.Machine.execSibBaseD8 reg scale base s
  | .sibBaseIdxD8 reg scale index base => Sys2Proof.Machine.execSibBaseIdxD8 reg scale index base s
  | .sibBaseD32 reg scale base => Sys2Proof.Machine.execSibBaseD32 reg scale base s
  | .sibBaseIdxD32 reg scale index base => Sys2Proof.Machine.execSibBaseIdxD32 reg scale index base s
  | .sextInt value n => Sys2Proof.Machine.execSextInt value n s
  | .sextBuf buf n => Sys2Proof.Machine.execSextBuf buf n s
  | .zextInt value n => Sys2Proof.Machine.execZextInt value n s
  | .zextBuf buf n => Sys2Proof.Machine.execZextBuf buf n s
  | .parity value => Sys2Proof.Machine.execParity value s
  | .msb value n => Sys2Proof.Machine.execMsb value n s
  | .lsb value n => Sys2Proof.Machine.execLsb value n s

end Sys2Proof.Machine
end

