-- ==== Sys2Proof/WellFormed.lean ====
section
/-! DEFINITION. Well-formed instructions: the field values a row of the table leaves to it (30 R56, the `except` lists of R62), and for a
primitive the arguments inside the spec's contract (41 R101 to R107; 93 U1, U3, U4, U14). -/

namespace Sys2Proof

/-- A buffer of a length the byte-buffer forms are specified for: `1 <= L <= n` (R102, R104). -/
def bufferFits (buf : List Byte) (n : OpWidth) : Bool :=
  decide (1 ≤ buf.length) && decide (buf.length ≤ n.bytes)

/-- An integer that is an unsigned pattern of 8 bits (R105). -/
def isByteValue (value : Int) : Bool := decide (0 ≤ value) && decide (value < 256)

/-- Every field of a form is one its row admits, every argument of a primitive is inside the spec's contract. -/
def Instr.wellFormed : Instr → Bool
  | .rmReg _ _ => true
  | .rmAbs32 _ => true
  | .rmBase _ rm => decide (rm ≠ 4) && decide (rm ≠ 5)
  | .rmBaseD8 _ rm => decide (rm ≠ 4)
  | .rmBaseD32 _ rm => decide (rm ≠ 4)
  | .sibAbs32 _ _ => true
  | .sibIdxAbs32 _ _ index => decide (index ≠ 4)
  | .sibBase _ _ base => decide (base ≠ 5)
  | .sibBaseIdx _ _ index base => decide (index ≠ 4) && decide (base ≠ 5)
  | .sibBaseD8 _ _ _ => true
  | .sibBaseIdxD8 _ _ index _ => decide (index ≠ 4)
  | .sibBaseD32 _ _ _ => true
  | .sibBaseIdxD32 _ _ index _ => decide (index ≠ 4)
  | .sextInt value n => decide (value < 2 ^ n.bits)
  | .sextBuf buf n => bufferFits buf n
  | .zextInt value n => decide (-(2 ^ (n.bits - 1) : Int) ≤ value)
  | .zextBuf buf n => bufferFits buf n
  | .parity value => isByteValue value
  | .msb value _ => decide (0 ≤ value)
  | .lsb value _ => decide (0 ≤ value)

/-- The instruction is one of the 13 addressing forms, not a primitive. -/
def Instr.isForm : Instr → Bool
  | .rmReg _ _ | .rmAbs32 _ | .rmBase _ _ | .rmBaseD8 _ _ | .rmBaseD32 _ _ | .sibAbs32 _ _ | .sibIdxAbs32 _ _ _
  | .sibBase _ _ _ | .sibBaseIdx _ _ _ _ | .sibBaseD8 _ _ _ | .sibBaseIdxD8 _ _ _ _ | .sibBaseD32 _ _ _
  | .sibBaseIdxD32 _ _ _ _ => true
  | .sextInt _ _ | .sextBuf _ _ | .zextInt _ _ | .zextBuf _ _ | .parity _ | .msb _ _ | .lsb _ _ => false

end Sys2Proof
end

