-- ==== Sys2Proof/Decode.lean ====
section
/-! DEFINITION. The decoder and the encoder. The field extractors of spec/30_encoding.md R50, R51 and 41 R109; the form selection of R56 in
the order of R62 (format M rows on the ModRM byte, else the SIB byte and the MS rows); the primitive select of R60; the encoder; the opcode
table as data; the host's `decodeTableWord`. -/

namespace Sys2Proof

/-- `v[2:0]`: RM of a ModRM byte, base of a SIB byte (R50, R51, R109). -/
def fieldLow (v : Byte) : RegIx := v.extractLsb' 0 3

/-- `v[5:3]`: REG of a ModRM byte, index of a SIB byte (R50, R51, R109). -/
def fieldMid (v : Byte) : RegIx := v.extractLsb' 3 3

/-- `v[7:6]`: MOD of a ModRM byte, scale of a SIB byte (R50, R51, R109). -/
def fieldTop (v : Byte) : BitVec 2 := v.extractLsb' 6 2

/-- The byte with the three given fields, `64*top + 8*mid + low` (R50, R51). -/
def packByte (top : BitVec 2) (mid low : RegIx) : Byte := top ++ mid ++ low

/-- Why bytes, or a primitive select, are no instruction. No ModRM or SIB value is among the reasons (R58). -/
inductive DecodeError where
  /-- There is no byte to be the ModRM byte. -/
  | modrmMissing
  /-- The ModRM byte announces a SIB byte and there is none. -/
  | sibMissing
  /-- `prim_op` is 7, which selects nothing (R60, 93 U2). -/
  | primOpReserved
deriving DecidableEq, Repr

/-- The format M rows: the form a ModRM byte selects by itself, `none` where it announces a SIB byte (MOD is not 11 and RM is 100: R53, R62). -/
def decodeModRM (modrm : Byte) : Option Instr :=
  let rm := fieldLow modrm
  let reg := fieldMid modrm
  let md := fieldTop modrm
  if md = 3 then some (.rmReg reg rm)
  else if rm = 4 then none
  else if md = 1 then some (.rmBaseD8 reg rm)
  else if md = 2 then some (.rmBaseD32 reg rm)
  else if rm = 5 then some (.rmAbs32 reg)
  else some (.rmBase reg rm)

/-- The format MS rows: the form a ModRM byte that announces a SIB byte selects together with it (R56 rows 6 to 13). -/
def decodeSib (modrm sib : Byte) : Instr :=
  let reg := fieldMid modrm
  let md := fieldTop modrm
  let base := fieldLow sib
  let index := fieldMid sib
  let scale := fieldTop sib
  if md = 1 then
    if index = 4 then .sibBaseD8 reg scale base else .sibBaseIdxD8 reg scale index base
  else if md = 2 then
    if index = 4 then .sibBaseD32 reg scale base else .sibBaseIdxD32 reg scale index base
  else if base = 5 then
    if index = 4 then .sibAbs32 reg scale else .sibIdxAbs32 reg scale index
  else
    if index = 4 then .sibBase reg scale base else .sibBaseIdx reg scale index base

/-- Decoding a list of stream bytes: the form, and the bytes after its ModRM and SIB bytes (its trailer and what follows it). -/
def decodeBytes : List Byte → Except DecodeError (Instr × List Byte)
  | [] => .error .modrmMissing
  | modrm :: rest =>
    match decodeModRM modrm with
    | some i => .ok (i, rest)
    | none =>
      match rest with
      | [] => .error .sibMissing
      | sib :: rest' => .ok (decodeSib modrm sib, rest')

/-- Decoding a primitive call: `prim_op` 0 to 6 select the seven operations, 7 selects nothing (R60). Each takes the ports it uses. -/
def decodePrim (c : PrimCall) : Except DecodeError Instr :=
  if c.op = 0 then .ok (.sextInt c.value c.width)
  else if c.op = 1 then .ok (.sextBuf c.buf c.width)
  else if c.op = 2 then .ok (.zextInt c.value c.width)
  else if c.op = 3 then .ok (.zextBuf c.buf c.width)
  else if c.op = 4 then .ok (.parity c.value)
  else if c.op = 5 then .ok (.msb c.value c.width)
  else if c.op = 6 then .ok (.lsb c.value c.width)
  else .error .primOpReserved

/-- The decoder, total on both of the block's entries. A primitive call has no bytes after it. -/
def decode : Code → Except DecodeError (Instr × List Byte)
  | .stream bytes => decodeBytes bytes
  | .prim c => (decodePrim c).map (fun i => (i, []))

/-- The code of an instruction: the ModRM and SIB bytes of a form (the `encoding` strings of the table), the select and the used ports of a
primitive (an unused port holds 0, no bytes, width 1). -/
def encode : Instr → Code
  | .rmReg reg rm => .stream [packByte 3 reg rm]
  | .rmAbs32 reg => .stream [packByte 0 reg 5]
  | .rmBase reg rm => .stream [packByte 0 reg rm]
  | .rmBaseD8 reg rm => .stream [packByte 1 reg rm]
  | .rmBaseD32 reg rm => .stream [packByte 2 reg rm]
  | .sibAbs32 reg scale => .stream [packByte 0 reg 4, packByte scale 4 5]
  | .sibIdxAbs32 reg scale index => .stream [packByte 0 reg 4, packByte scale index 5]
  | .sibBase reg scale base => .stream [packByte 0 reg 4, packByte scale 4 base]
  | .sibBaseIdx reg scale index base => .stream [packByte 0 reg 4, packByte scale index base]
  | .sibBaseD8 reg scale base => .stream [packByte 1 reg 4, packByte scale 4 base]
  | .sibBaseIdxD8 reg scale index base => .stream [packByte 1 reg 4, packByte scale index base]
  | .sibBaseD32 reg scale base => .stream [packByte 2 reg 4, packByte scale 4 base]
  | .sibBaseIdxD32 reg scale index base => .stream [packByte 2 reg 4, packByte scale index base]
  | .sextInt value n => .prim ⟨0, value, [], n⟩
  | .sextBuf buf n => .prim ⟨1, 0, buf, n⟩
  | .zextInt value n => .prim ⟨2, value, [], n⟩
  | .zextBuf buf n => .prim ⟨3, 0, buf, n⟩
  | .parity value => .prim ⟨4, value, [], .w1⟩
  | .msb value n => .prim ⟨5, value, [], n⟩
  | .lsb value n => .prim ⟨6, value, [], n⟩

/-- The stream bytes of a code; a primitive has none. -/
def Code.bytes : Code → List Byte
  | .stream bytes => bytes
  | .prim _ => []

/-- What follows the ModRM and SIB bytes of an instruction in the stream (R52). -/
def Instr.trailer : Instr → Trailer
  | .rmReg _ _ | .rmBase _ _ | .sibBase _ _ _ | .sibBaseIdx _ _ _ _ => .none
  | .rmAbs32 _ | .sibAbs32 _ _ | .sibIdxAbs32 _ _ _ => .a32
  | .rmBaseD8 _ _ | .sibBaseD8 _ _ _ | .sibBaseIdxD8 _ _ _ _ => .d8
  | .rmBaseD32 _ _ | .sibBaseD32 _ _ _ | .sibBaseIdxD32 _ _ _ _ => .d32
  | .sextInt _ _ | .sextBuf _ _ | .zextInt _ _ | .zextBuf _ _ | .parity _ | .msb _ _ | .lsb _ _ => .none

/-- The width of a trailer in bytes (R52). -/
def Trailer.bytes : Trailer → Nat
  | .none => 0
  | .d8 => 1
  | .d32 => 4
  | .a32 => 4

/-- The stream bytes a completed call of this form consumes (R54); 0 for a primitive (R100). -/
def Instr.length (i : Instr) : Nat := (encode i).bytes.length + i.trailer.bytes

/-- The name of an instruction's row in spec/opcode_table.json. -/
def Instr.mnemonic : Instr → String
  | .rmReg _ _ => "RM_REG"
  | .rmAbs32 _ => "RM_ABS32"
  | .rmBase _ _ => "RM_BASE"
  | .rmBaseD8 _ _ => "RM_BASE_D8"
  | .rmBaseD32 _ _ => "RM_BASE_D32"
  | .sibAbs32 _ _ => "SIB_ABS32"
  | .sibIdxAbs32 _ _ _ => "SIB_IDX_ABS32"
  | .sibBase _ _ _ => "SIB_BASE"
  | .sibBaseIdx _ _ _ _ => "SIB_BASE_IDX"
  | .sibBaseD8 _ _ _ => "SIB_BASE_D8"
  | .sibBaseIdxD8 _ _ _ _ => "SIB_BASE_IDX_D8"
  | .sibBaseD32 _ _ _ => "SIB_BASE_D32"
  | .sibBaseIdxD32 _ _ _ _ => "SIB_BASE_IDX_D32"
  | .sextInt _ _ => "SEXT_INT"
  | .sextBuf _ _ => "SEXT_BUF"
  | .zextInt _ _ => "ZEXT_INT"
  | .zextBuf _ _ => "ZEXT_BUF"
  | .parity _ => "PARITY"
  | .msb _ _ => "MSB"
  | .lsb _ _ => "LSB"

/-- The three formats of the table (R62). -/
inductive RowFormat where
  | m
  | ms
  | prim
deriving DecidableEq, Repr

/-- One row of spec/opcode_table.json. Masks and matches of every format are written at 16 bits; `except` holds (mask, match) pairs. -/
structure TableRow where
  mnemonic : String
  format   : RowFormat
  mask     : BitVec 16
  pattern  : BitVec 16
  except   : List (BitVec 16 × BitVec 16)
  trailer  : Trailer
  length   : Nat
deriving DecidableEq, Repr

/-- A row selects an input that meets its pattern and none of its `except` patterns (R62). -/
def TableRow.selects (r : TableRow) (input : BitVec 16) : Bool :=
  (input &&& r.mask == r.pattern) && r.except.all (fun e => !(input &&& e.1 == e.2))

/-- The 13 rows of formats M and MS, in the table's order. -/
def formRows : List TableRow :=
  [⟨"RM_REG", .m, 0x00c0, 0x00c0, [], .none, 1⟩,
   ⟨"RM_ABS32", .m, 0x00c7, 0x0005, [], .a32, 5⟩,
   ⟨"SIB_ABS32", .ms, 0x3fc7, 0x2504, [], .a32, 6⟩,
   ⟨"SIB_IDX_ABS32", .ms, 0x07c7, 0x0504, [(0x3fc7, 0x2504)], .a32, 6⟩,
   ⟨"SIB_BASE", .ms, 0x38c7, 0x2004, [(0x3fc7, 0x2504)], .none, 2⟩,
   ⟨"SIB_BASE_IDX", .ms, 0x00c7, 0x0004, [(0x38c7, 0x2004), (0x07c7, 0x0504)], .none, 2⟩,
   ⟨"SIB_BASE_D8", .ms, 0x38c7, 0x2044, [], .d8, 3⟩,
   ⟨"SIB_BASE_IDX_D8", .ms, 0x00c7, 0x0044, [(0x38c7, 0x2044)], .d8, 3⟩,
   ⟨"SIB_BASE_D32", .ms, 0x38c7, 0x2084, [], .d32, 6⟩,
   ⟨"SIB_BASE_IDX_D32", .ms, 0x00c7, 0x0084, [(0x38c7, 0x2084)], .d32, 6⟩,
   ⟨"RM_BASE", .m, 0x00c0, 0x0000, [(0x00c7, 0x0004), (0x00c7, 0x0005)], .none, 1⟩,
   ⟨"RM_BASE_D8", .m, 0x00c0, 0x0040, [(0x00c7, 0x0044)], .d8, 2⟩,
   ⟨"RM_BASE_D32", .m, 0x00c0, 0x0080, [(0x00c7, 0x0084)], .d32, 5⟩]

/-- The 7 rows of format PRIM, in the table's order; the input is `prim_op`. -/
def primRows : List TableRow :=
  [⟨"SEXT_INT", .prim, 0x0007, 0x0000, [], .none, 0⟩,
   ⟨"SEXT_BUF", .prim, 0x0007, 0x0001, [], .none, 0⟩,
   ⟨"ZEXT_INT", .prim, 0x0007, 0x0002, [], .none, 0⟩,
   ⟨"ZEXT_BUF", .prim, 0x0007, 0x0003, [], .none, 0⟩,
   ⟨"PARITY", .prim, 0x0007, 0x0004, [], .none, 0⟩,
   ⟨"MSB", .prim, 0x0007, 0x0005, [], .none, 0⟩,
   ⟨"LSB", .prim, 0x0007, 0x0006, [], .none, 0⟩]

/-- The word a form row is applied to: `256*sib + modrm` (R62). -/
def formWord (modrm sib : Byte) : BitVec 16 := sib ++ modrm

/-- The `k`-th byte of a table word, bit 0 of byte 0 being the word's bit 0. -/
def tableByte (w k : Nat) : Byte := BitVec.ofNat 8 (w >>> (8 * k))

/-- Whether the host's table word stands for a primitive select. The table gives ModRM and `prim_op` rows words of one byte alike; the model
reads a word of at most 8 bits and below 7 as `prim_op` (DESIGN CHOICE, assumption log entry 11). -/
def isPrimWord (nbits w : Nat) : Bool := decide (nbits < 8) || (decide (nbits = 8) && decide (w < 7))

/-- The primitive call of a table word: the select, and operands of zeros: value 0, a buffer of one zero byte, width 1. -/
def primCallOfWord (w : Nat) : PrimCall := ⟨BitVec.ofNat 3 w, 0, [0], .w1⟩

/-- The six stream bytes of a table word of `nbits` bits, the longest encoding (R54); the bits above `nbits` are 0. -/
def streamBytesOfWord (nbits w : Nat) : List Byte :=
  (List.range 6).map (tableByte (w % 2 ^ nbits))

/-- The code of the host's table word. -/
def codeOfWord (nbits w : Nat) : Code :=
  if isPrimWord nbits w then .prim (primCallOfWord w) else .stream (streamBytesOfWord nbits w)

/-- The instruction the decoder reads from a table word, `none` where it refuses. -/
def decodeTableWord (nbits w : Nat) : Option Instr :=
  match decode (codeOfWord nbits w) with
  | .ok (i, _) => some i
  | .error _ => none

end Sys2Proof
end

