-- ==== Sys2Proof/Machine/Resolve.lean ====
section
/-! DEFINITION. The shared start of a call: what `resolve` does before the form is known (spec/40_operand_resolver.md R71, R72, R79; 30 R62), the
selection of a primitive (30 R60), and the placing of a table word for the host. -/

namespace Sys2Proof.Machine

/-- From the ModRM byte to the form: where it announces a SIB byte, that byte is read (R79); then `run` on the form they select (30 R62). -/
def selectForm (run : Instr → State → Answer) (modrm : Byte) (s : State) : Answer :=
  match decodeModRM modrm with
  | some i => run i s
  | none => fetchRead 1 s fun sib t => run (decodeSib modrm (BitVec.ofNat 8 sib)) t

/-- `resolve` up to the form: the address-size check before anything else (R71), the ModRM byte (R72), then the form. -/
def resolve (run : Instr → State → Answer) (s : State) : Answer :=
  if s.addressSize < Config.minAddressSize then raise (.unsupportedMode s.addressSize) s
  else fetchRead 1 s fun modrm t => selectForm run (BitVec.ofNat 8 modrm) t

/-- A primitive call: the operation `prim_op` selects, or a refusal for the select that means nothing (30 R60, 93 U2). -/
def evaluate (run : Instr → State → Answer) (c : PrimCall) (s : State) : Answer :=
  match decodePrim c with
  | .ok i => run i s
  | .error _ => .refused .primOpReserved

/-- One atomic operation of the block (00 R9): the presented call is taken and run to completion; with none presented the block is idle and
nothing changes (10 R23; assumption log entry 2). -/
def operate (run : Instr → State → Answer) (s : State) : Answer :=
  match s.request with
  | none => .next s
  | some .resolve => resolve run s.accept
  | some (.prim c) => evaluate run c s.accept

/-- A code presented to the block: stream bytes placed at the cursor with `resolve` called in an accepted address size and no request for
them denied, or a primitive call. -/
def State.present (s : State) : Code → State
  | .stream bytes =>
    { s with
      stream := s.stream.writeBytes s.cursor bytes
      denied := s.denied.filter (fun r => !(decide (s.cursor ≤ r.1) && decide (r.1 < s.cursor + bytes.length)))
      addressSize := max s.addressSize Config.minAddressSize
      request := some .resolve }
  | .prim c => { s with request := some (.prim c) }

end Sys2Proof.Machine
end

