-- ==== Sys2Proof/Machine/Step.lean ====
section
/-! DEFINITION. One step of the machine, and the host's way to place one instruction. -/

namespace Sys2Proof.Machine

/-- One step: one call of the block, to completion (spec/00_scope.md R9). -/
def step (s : State) : Host.Outcome State Fault Refusal := operate exec s

/-- `s` with the instruction of a table word presented to the block (assumption log entries 11 and 12). -/
def State.withFetchWord (s : State) (nbits w : Nat) : State := s.present (codeOfWord nbits w)

end Sys2Proof.Machine
end

