-- ==== Sys2Proof/Safety.lean ====
section
/-! DEFINITION. The terms the claims use: the invariant of the machine, and the states a `resolve` call may end in (spec/60_exceptions.md R120,
R121, R125; spec/40_operand_resolver.md R70, R91, R92). -/

namespace Sys2Proof.Machine

/-- What a delivery may be: the second operand is a register (40 R73), a refused address size is below 4 (60 R120), a failing read is of 1 or
4 bytes at a legal cursor (60 R121, 20 R34), a buffer is as long as an operand width (41 R102, R104). -/
def Delivery.legal : Delivery → Bool
  | .operands _ (.register _ _) => true
  | .operands _ (.memory _ _) => false
  | .error (.unsupportedMode a) => decide (a < Config.minAddressSize)
  | .error (.malformedStream p n _) => decide (p ≤ Config.streamTop) && (decide (n = 1) || decide (n = 4))
  | .integer _ => true
  | .buffer bytes => decide (bytes.length ∈ [1, 2, 4, 8])
  | .bit _ => true

/-- The invariant: the stream is in canonical form, the cursor is in its range, what was delivered is legal. -/
def State.inv (s : State) : Bool :=
  s.stream.wf && decide (s.cursor ≤ Config.streamTop) && s.delivered.all Delivery.legal

/-- A `resolve` call is presented and its address size is accepted. -/
abbrev State.resolves (s : State) : Prop := s.request = some .resolve ∧ 4 ≤ s.addressSize

/-- What the stream supplies for a read of `n` bytes once `k` bytes have been consumed. -/
def State.supplyAt (s : State) (k n : Nat) : Option (List Byte) := (s.advance k).supply n

/-- The state after a completed `resolve` of `n` bytes: the cursor moved, the descriptors delivered, all else as before. -/
def State.returned (s : State) (n : Nat) (rm : OperandDescriptor) (reg : RegIx) : State :=
  { s with request := none, cursor := s.cursor + n, delivered := some (.operands rm (.register reg s.effectiveWidthB)) }

/-- The state after a call that ended in MalformedStreamError at a read of `n` bytes, `k` bytes having been consumed (60 R121);
the error is the call's outcome and stands in `delivered` (60 R125, assumption log entry 1). -/
def State.malformedAt (s : State) (k n : Nat) : State :=
  { s with request := none, cursor := s.cursor + k, delivered := some (.error (.malformedStream (s.cursor + k) n s.report)) }

/-- The state after a call that ended in UnsupportedModeError (60 R120; log entry 1). -/
def State.unsupported (s : State) : State :=
  { s with request := none, delivered := some (.error (.unsupportedMode s.addressSize)) }

/-- The state after a primitive: its result delivered, all else as before (41 R100). -/
def State.answered (s : State) (d : Delivery) : State := { s with delivered := some d }

/-- The state after a form's meaning has consumed a trailer of `n` bytes and returned its operands. -/
def State.completed (s : State) (n : Nat) (rm : OperandDescriptor) (reg : RegIx) : State :=
  { s with cursor := s.cursor + n, delivered := some (.operands rm (.register reg s.effectiveWidthB)) }

/-- Four stream bytes as a little-endian 32-bit pattern (20 R31). -/
def wordOfBytes (b0 b1 b2 b3 : Byte) : Word := b3 ++ b2 ++ b1 ++ b0

end Sys2Proof.Machine
end

