-- ==== Sys2Proof/Certificates/Slice0/Obligations.lean ====
section
/-! DEFINITION. The statements for the provers, and what they are stated against: a transcription of the algorithm of spec/40_operand_resolver.md
R89 on natural numbers, and the table of forms of spec/30_encoding.md R56 as formulas. -/

namespace Sys2Proof

open Sys2Proof.Machine

/-- R89's `FetchRead(n)` at cursor `c`: the little-endian value and the moved cursor, or MalformedStreamError and the cursor where it was. -/
def Reference.fetch (s : State) (c n : Nat) (go : Nat → Nat → Delivery × Nat) : Delivery × Nat :=
  match ({ s with cursor := c } : State).supply n with
  | none => (.error (.malformedStream c n s.report), c)
  | some bytes => go (littleEndian bytes) (c + n)

/-- R89's `x[i]`, as an unsigned number. -/
def Reference.x (s : State) (i : Nat) : Nat := (s.reg (BitVec.ofNat 3 i)).toNat

/-- R89's `sext_32(d)` of a displacement of `b` bytes, as an unsigned number (00 R7). -/
def Reference.sext (b d : Nat) : Nat := if 2 ^ (8 * b - 1) ≤ d then d + (2 ^ 32 - 2 ^ (8 * b)) else d

/-- R89's last line: the address reduced modulo 2^32 and the two descriptors. -/
def Reference.finish (s : State) (reg addr c : Nat) : Delivery × Nat :=
  (.operands (.memory (BitVec.ofNat 32 (addr % 2 ^ 32)) s.widthA) (.register (BitVec.ofNat 3 reg) (s.widthB.getD s.widthA)), c)

/-- The algorithm of R89 in the source's step order, on natural numbers: what the call delivers and where it leaves the cursor. -/
def Reference.resolve (s : State) : Delivery × Nat :=
  if s.addressSize < 4 then (.error (.unsupportedMode s.addressSize), s.cursor)
  else
    -- step 1
    Reference.fetch s s.cursor 1 fun modrm c =>
      let rm := modrm % 8
      let reg := modrm / 8 % 8
      let md := modrm / 64
      -- step 2
      if md = 3 then
        (.operands (.register (BitVec.ofNat 3 rm) s.widthA) (.register (BitVec.ofNat 3 reg) (s.widthB.getD s.widthA)), c)
      else if rm ≠ 4 then
        -- steps 3a, 3b, 3c
        if md = 0 ∧ rm = 5 then Reference.fetch s c 4 fun addr c => Reference.finish s reg addr c
        else
          let addr := Reference.x s rm
          if md = 1 ∨ md = 2 then
            let b := 3 * md - 2
            Reference.fetch s c b fun d c => Reference.finish s reg (addr + Reference.sext b d) c
          else Reference.finish s reg addr c
      else
        -- step 4a
        Reference.fetch s c 1 fun sib c =>
          let base := sib % 8
          let index := sib / 8 % 8
          let scale := sib / 64
          -- steps 4c, 4d, 4e, from the address so far
          let rest := fun addr c =>
            let addr := if index ≠ 4 then addr + Reference.x s index * 2 ^ scale else addr
            if base = 5 ∧ md = 0 then Reference.fetch s c 4 fun a32 c => Reference.finish s reg (addr + a32) c
            else Reference.finish s reg (addr + Reference.x s base) c
          -- step 4b
          if md = 1 ∨ md = 2 then
            let b := 3 * md - 2
            Reference.fetch s c b fun d c => rest (0 + Reference.sext b d) c
          else rest 0 c

/-- The RM operand column of the table of R56; `v` is the value of the trailer, a primitive has no operand and is given none here. -/
def Reference.rmOperand (s : State) (v : Nat) : Instr → OperandDescriptor
  | .rmReg _ rm => .register rm s.widthA
  | .rmBase _ rm => .memory (s.reg rm) s.widthA
  | .rmAbs32 _ => .memory (BitVec.ofNat 32 v) s.widthA
  | .rmBaseD8 _ rm => .memory (s.reg rm + BitVec.ofNat 32 (Reference.sext 1 v)) s.widthA
  | .rmBaseD32 _ rm => .memory (s.reg rm + BitVec.ofNat 32 v) s.widthA
  | .sibBase _ _ base => .memory (s.reg base) s.widthA
  | .sibBaseIdx _ k index base => .memory (s.reg base + s.reg index * BitVec.ofNat 32 (2 ^ k.toNat)) s.widthA
  | .sibAbs32 _ _ => .memory (BitVec.ofNat 32 v) s.widthA
  | .sibIdxAbs32 _ k index => .memory (s.reg index * BitVec.ofNat 32 (2 ^ k.toNat) + BitVec.ofNat 32 v) s.widthA
  | .sibBaseD8 _ _ base => .memory (s.reg base + BitVec.ofNat 32 (Reference.sext 1 v)) s.widthA
  | .sibBaseIdxD8 _ k index base =>
    .memory (s.reg base + s.reg index * BitVec.ofNat 32 (2 ^ k.toNat) + BitVec.ofNat 32 (Reference.sext 1 v)) s.widthA
  | .sibBaseD32 _ _ base => .memory (s.reg base + BitVec.ofNat 32 v) s.widthA
  | .sibBaseIdxD32 _ k index base =>
    .memory (s.reg base + s.reg index * BitVec.ofNat 32 (2 ^ k.toNat) + BitVec.ofNat 32 v) s.widthA
  | .sextInt _ _ | .sextBuf _ _ | .zextInt _ _ | .zextBuf _ _ | .parity _ | .msb _ _ | .lsb _ _ => .register 0 s.widthA

/-- The REG field of a form (R73). -/
def Reference.regField : Instr → RegIx
  | .rmReg reg _ | .rmAbs32 reg | .rmBase reg _ | .rmBaseD8 reg _ | .rmBaseD32 reg _ | .sibAbs32 reg _ | .sibIdxAbs32 reg _ _
  | .sibBase reg _ _ | .sibBaseIdx reg _ _ _ | .sibBaseD8 reg _ _ | .sibBaseIdxD8 reg _ _ _ | .sibBaseD32 reg _ _
  | .sibBaseIdxD32 reg _ _ _ => reg
  | .sextInt _ _ | .sextBuf _ _ | .zextInt _ _ | .zextBuf _ _ | .parity _ | .msb _ _ | .lsb _ _ => 0

/-- The registers a form reads (R96 d); a primitive reads none (R100). -/
def Reference.regsRead : Instr → List RegIx
  | .rmReg _ _ | .rmAbs32 _ | .sibAbs32 _ _ => []
  | .rmBase _ rm | .rmBaseD8 _ rm | .rmBaseD32 _ rm => [rm]
  | .sibBase _ _ base | .sibBaseD8 _ _ base | .sibBaseD32 _ _ base => [base]
  | .sibIdxAbs32 _ _ index => [index]
  | .sibBaseIdx _ _ index base | .sibBaseIdxD8 _ _ index base | .sibBaseIdxD32 _ _ index base => [index, base]
  | .sextInt _ _ | .sextBuf _ _ | .zextInt _ _ | .zextBuf _ _ | .parity _ | .msb _ _ | .lsb _ _ => []

/-- The descriptor of the same location at another width. -/
def Reference.withWidth : OperandDescriptor → OpWidth → OperandDescriptor
  | .register i _, w => .register i w
  | .memory a _, w => .memory a w

/-- `signed_b` of a number below `2^(8b)`: its value as a two's-complement integer of `b` bytes, for any `b` of at least 1. -/
def Reference.signed (b v : Nat) : Int := if 2 ^ (8 * b - 1) ≤ v then (v : Int) - 2 ^ (8 * b) else v

/-- R88: the form completes, `n` trailer bytes consumed, and its address is BOTH sums modulo 2^32, the signed and the unsigned one. -/
def Reference.Addresses (s : State) (i : Instr) (n : Nat) (reg : RegIx) (signed : Int) (unsigned : Nat) : Prop :=
  exec i s = .next (s.completed n (.memory (BitVec.ofInt 32 signed) s.widthA) reg) ∧
  exec i s = .next (s.completed n (.memory (BitVec.ofNat 32 unsigned) s.widthA) reg)

/-- The two ways a call can end before its form is known: the mode check (R71) and the ModRM read (R72). -/
def SharedErrors (s : State) : Prop :=
  (s.addressSize < 4 → step s = .next s.unsupported) ∧
  (4 ≤ s.addressSize → s.supply 1 = none → step s = .next (s.malformedAt 0 1))

end Sys2Proof

open Sys2Proof Sys2Proof.Machine

/-- Sanity of the decoder on codes taken from 95 S1 to S3, V10, V16 and 41 R105. -/
def Obligations.WordsOfTheSpecDecode : Prop :=
  decode (.stream [0xC0]) = .ok (.rmReg 0 0, []) ∧
  decode (.stream [0x05, 0x78, 0x56, 0x34, 0x12]) = .ok (.rmAbs32 0, [0x78, 0x56, 0x34, 0x12]) ∧
  decode (.stream [0x44, 0x25]) = .ok (.sibBaseD8 0 0 5, []) ∧
  decode (.stream [0x04, 0x88]) = .ok (.sibBaseIdx 0 2 1 0, []) ∧
  decode (.stream [0x84, 0x8D]) = .ok (.sibBaseIdxD32 0 2 1 5, []) ∧
  decode (.prim ⟨4, 0xA5, [], .w1⟩) = .ok (.parity 0xA5, [])

/-- Round trip over the whole table (30 R56, R60, R62). -/
def Obligations.DecodeOfEncodeIsTheInstruction : Prop :=
  ∀ i : Instr, i.wellFormed = true →
    (i.isForm = true → ∀ rest, decode (.stream ((encode i).bytes ++ rest)) = .ok (i, rest)) ∧
    (i.isForm = false → decode (encode i) = .ok (i, []))

/-- The other direction of the round trip, for the stream (30 R50, R51, R56). -/
def Obligations.EncodeOfDecodeGivesTheBytes : Prop :=
  ∀ bytes i rest, decode (.stream bytes) = .ok (i, rest) →
    i.wellFormed = true ∧ i.isForm = true ∧ bytes = (encode i).bytes ++ rest

/-- The table of R62 (mask, match and except lists, copied from spec/opcode_table.json) partitions the inputs as R56 says. -/
def Obligations.TableRowsSelectExactlyTheDecodedForm : Prop :=
  (∀ modrm sib : Byte,
    (formRows.filter (fun r => r.selects (formWord modrm sib))).map (fun r => (r.mnemonic, r.trailer, r.length)) =
      [(fun i : Instr => (i.mnemonic, i.trailer, i.length)) ((decodeModRM modrm).getD (decodeSib modrm sib))]) ∧
  (∀ c : PrimCall,
    (primRows.filter (fun r => r.selects (c.op.setWidth 16))).map (fun r => r.mnemonic) =
      match decodePrim c with
      | .ok i => [i.mnemonic]
      | .error _ => [])

/-- There is no reserved or illegal encoding (30 R58); the scale field is ignored where index = 100. -/
def Obligations.NoStreamByteIsRefused : Prop :=
  (∀ (modrm sib : Byte) (rest : List Byte), ∃ i rest', decode (.stream (modrm :: sib :: rest)) = .ok (i, rest') ∧ i.isForm = true) ∧
  (∀ (s : State) (reg base : RegIx) (k k' : ScaleBits),
    exec (.sibAbs32 reg k) s = exec (.sibAbs32 reg k') s ∧ exec (.sibBase reg k base) s = exec (.sibBase reg k' base) s ∧
    exec (.sibBaseD8 reg k base) s = exec (.sibBaseD8 reg k' base) s ∧
    exec (.sibBaseD32 reg k base) s = exec (.sibBaseD32 reg k' base) s)

/-- Field extraction (41 R109; 30 R50, R51). -/
def Obligations.FieldsRebuildTheByte : Prop :=
  ∀ v : Byte,
    (fieldLow v).toNat = v.toNat / 2 ^ 0 % 2 ^ 3 ∧ (fieldMid v).toNat = v.toNat / 2 ^ 3 % 2 ^ 3 ∧
    (fieldTop v).toNat = v.toNat / 2 ^ 6 % 2 ^ 2 ∧
    v.toNat = (fieldLow v).toNat + 8 * (fieldMid v).toNat + 64 * (fieldTop v).toNat

/-- Operation select of the primitives (30 R60). The numbering 0 to 6 and the refusal of 7 are no plain fact of the source but the spec's own decision (92 D14), which the model follows: log entries 20 (the numbers) and 9 (the refusal), both DEDUCED. -/
def Obligations.PrimOpSelectsTheSevenOperations : Prop :=
  ∀ (s : State) (value : Int) (buf : List Byte) (n : OpWidth),
    let call := fun op : BitVec 3 => ({ s with request := some (.prim ⟨op, value, buf, n⟩) } : State)
    step (call 0) = exec (.sextInt value n) s.accept ∧ step (call 1) = exec (.sextBuf buf n) s.accept ∧
    step (call 2) = exec (.zextInt value n) s.accept ∧ step (call 3) = exec (.zextBuf buf n) s.accept ∧
    step (call 4) = exec (.parity value) s.accept ∧ step (call 5) = exec (.msb value n) s.accept ∧
    step (call 6) = exec (.lsb value n) s.accept ∧ step (call 7) = .refused .primOpReserved

/-- What step adds around exec: the address-size check, the reads of the ModRM and SIB bytes and their advances (40 R71, R72, R79). -/
def Obligations.StepRunsTheDecodedForm : Prop :=
  ∀ (s : State) (i : Instr) (modrm sib : Byte), s.resolves → s.supply 1 = some [modrm] →
    (decode (.stream [modrm]) = .ok (i, []) → step s = exec i (s.accept.advance 1)) ∧
    (decode (.stream [modrm]) = .error .sibMissing → s.supplyAt 1 1 = some [sib] → decode (.stream [modrm, sib]) = .ok (i, []) →
      step s = exec i (s.accept.advance 2))

/-- The primitives are not encoded in the stream (30 R60). -/
def Obligations.StepRunsTheDecodedPrimitive : Prop :=
  ∀ (s : State) (c : PrimCall) (i : Instr), s.request = some (.prim c) → decode (.prim c) = .ok (i, []) →
    step s = exec i s.accept

/-- R23: the block is idle between operations. That a step is then possible and changes nothing is the model's choice, log entry 2. -/
def Obligations.IdleBlockDoesNothing : Prop :=
  ∀ s : State, s.request = none → step s = .next s

/-- The host's withFetchWord stands on this; it is the model's own interface (log entry 12), no rule of the spec. -/
def Obligations.PresentedCodeRunsNext : Prop :=
  ∀ (s : State) (c : Code) (i : Instr) (rest : List Byte), decode c = .ok (i, rest) →
    s.cursor + c.bytes.length ≤ Config.streamTop →
    step (s.present c) = exec i ((s.present c).accept.advance (encode i).bytes.length)

/-- The mode check comes before the first read, so it holds whatever the stream holds (40 R71; 60 R120, R124). -/
def Obligations.UnsupportedModeBeforeAnything : Prop :=
  ∀ s : State, s.request = some .resolve → s.addressSize < 4 →
    step s = .next s.unsupported ∧ step { s.unsupported with request := some .resolve } = .next s.unsupported

/-- ModRM fetch and split (40 R72), with the branch each value takes. -/
def Obligations.ModrmIsFetchedAndSplitFirst : Prop :=
  ∀ s : State, s.resolves →
    (s.supply 1 = none → step s = .next (s.malformedAt 0 1)) ∧
    (∀ m : Byte, s.supply 1 = some [m] →
      (fieldTop m = 3 → step s = exec (.rmReg (fieldMid m) (fieldLow m)) (s.accept.advance 1)) ∧
      (fieldTop m ≠ 3 → fieldLow m = 4 → s.supplyAt 1 1 = none → step s = .next (s.malformedAt 1 1)) ∧
      (fieldTop m ≠ 3 → fieldLow m = 4 → ∀ b : Byte, s.supplyAt 1 1 = some [b] →
        step s = exec (decodeSib (packByte (fieldTop m) (fieldMid m) 4) b) (s.accept.advance 2)) ∧
      (fieldTop m = 0 → fieldLow m ≠ 4 → fieldLow m ≠ 5 → step s = exec (.rmBase (fieldMid m) (fieldLow m)) (s.accept.advance 1)) ∧
      (fieldTop m = 0 → fieldLow m = 5 → step s = exec (.rmAbs32 (fieldMid m)) (s.accept.advance 1)) ∧
      (fieldTop m = 1 → fieldLow m ≠ 4 → step s = exec (.rmBaseD8 (fieldMid m) (fieldLow m)) (s.accept.advance 1)) ∧
      (fieldTop m = 2 → fieldLow m ≠ 4 → step s = exec (.rmBaseD32 (fieldMid m) (fieldLow m)) (s.accept.advance 1)))

/-- Byte order of the stream (20 R31, fixed by the source's second scenario). -/
def Obligations.StreamValuesAreLittleEndian : Prop :=
  ∀ (s : State) (go : Nat → State → Answer) (b0 b1 b2 b3 : Byte),
    s.cursor + 4 ≤ Config.streamTop → (s.cursor, 4) ∉ s.denied →
    s.stream.read s.cursor = some b0 → s.stream.read (s.cursor + 1) = some b1 →
    s.stream.read (s.cursor + 2) = some b2 → s.stream.read (s.cursor + 3) = some b3 →
    fetchRead 4 s go = go (b0.toNat + 2 ^ 8 * b1.toNat + 2 ^ 16 * b2.toNat + 2 ^ 24 * b3.toNat) (s.advance 4) ∧
    fetchRead 4 s (fun v t => go (BitVec.ofNat 32 v).toNat t) = go (wordOfBytes b0 b1 b2 b3).toNat (s.advance 4)

/-- The stream read primitive (20 R35). That a read of which only some bytes exist fails as a whole is the spec's own decision (92 D25), followed in log entry 3 (DEDUCED); the end at 2^32 is its decision D4 (log entry 5, DEDUCED). The payload carried in `report` is the model's DESIGN CHOICE (log entry 4), and so is the list `denied` of what else the memory abstraction cannot supply (log entry 3). -/
def Obligations.FetchReadIsAllOrNothing : Prop :=
  ∀ (s : State) (n : Nat) (go : Nat → State → Answer), n = 1 ∨ n = 4 →
    (s.supply n = none → fetchRead n s go = .next (s.answered (.error (.malformedStream s.cursor n s.report)))) ∧
    (∀ bs : List Byte, s.supply n = some bs →
      bs.length = n ∧ (∀ k, k < n → s.stream.read (s.cursor + k) = bs[k]?) ∧
      fetchRead n s go = go (((List.range n).map (fun k => 2 ^ (8 * k) * (bs.getD k 0).toNat)).sum) (s.advance n)) ∧
    ((∃ k, k < n ∧ s.stream.read (s.cursor + k) = none) → s.supply n = none) ∧
    (2 ^ 32 < s.cursor + n → s.supply n = none)

/-- Top of the stream (10 R14, 95 E13). That the cursor never wraps and a read past 2^32 fails is the spec's own decision (92 D4), which the model follows: log entry 5, DEDUCED. The payload is log entry 4, DESIGN CHOICE. -/
def Obligations.CursorNeverWraps : Prop :=
  ∀ (s : State) (n : Nat) (go : Nat → State → Answer),
    (2 ^ 32 < s.cursor + n → fetchRead n s go = .next (s.answered (.error (.malformedStream s.cursor n s.report)))) ∧
    (∀ bs, s.cursor + n = 2 ^ 32 → s.supply n = some bs →
      fetchRead n s go = go (littleEndian bs) (s.advance n) ∧ (s.advance n).cursor = 2 ^ 32) ∧
    (s.cursor = 2 ^ 32 → 0 < n → fetchRead n s go = .next (s.answered (.error (.malformedStream s.cursor n s.report))))

/-- Form of 40 R74, from the cursor at its ModRM byte to the descriptors, with every way its reads can fail. -/
def Obligations.RmRegNamesBothRegisters : Prop :=
  ∀ (s : State) (reg rm : RegIx), s.request = some .resolve → SharedErrors s ∧
    (4 ≤ s.addressSize → s.supply 1 = some [packByte 3 reg rm] →
      step s = .next (s.returned 1 (.register rm s.widthA) reg))

/-- Form of 40 R75, from the cursor at its ModRM byte to the descriptors, with every way its reads can fail. -/
def Obligations.RmBaseAddressesThroughTheRegister : Prop :=
  ∀ (s : State) (reg rm : RegIx), s.request = some .resolve → rm ≠ 4 → rm ≠ 5 → SharedErrors s ∧
    (4 ≤ s.addressSize → s.supply 1 = some [packByte 0 reg rm] →
      step s = .next (s.returned 1 (.memory (s.reg rm) s.widthA) reg))

/-- Form of 40 R76, from the cursor at its ModRM byte to the descriptors, with every way its reads can fail. -/
def Obligations.RmAbs32TakesTheAddressFromTheStream : Prop :=
  ∀ (s : State) (reg : RegIx), s.request = some .resolve → SharedErrors s ∧
    (4 ≤ s.addressSize → s.supply 1 = some [packByte 0 reg 5] →
      (s.supplyAt 1 4 = none → step s = .next (s.malformedAt 1 4)) ∧
      (∀ b0 b1 b2 b3 : Byte, s.supplyAt 1 4 = some [b0, b1, b2, b3] →
        step s = .next (s.returned 5 (.memory (wordOfBytes b0 b1 b2 b3) s.widthA) reg)))

/-- Form of 40 R77, from the cursor at its ModRM byte to the descriptors, with every way its reads can fail. -/
def Obligations.RmBaseD8AddsTheSignExtendedByte : Prop :=
  ∀ (s : State) (reg rm : RegIx), s.request = some .resolve → rm ≠ 4 → SharedErrors s ∧
    (4 ≤ s.addressSize → s.supply 1 = some [packByte 1 reg rm] →
      (s.supplyAt 1 1 = none → step s = .next (s.malformedAt 1 1)) ∧
      (∀ d8 : Byte, s.supplyAt 1 1 = some [d8] →
        step s = .next (s.returned 2 (.memory (s.reg rm + d8.signExtend 32) s.widthA) reg)))

/-- Form of 40 R78, from the cursor at its ModRM byte to the descriptors, with every way its reads can fail. -/
def Obligations.RmBaseD32AddsTheDisplacement : Prop :=
  ∀ (s : State) (reg rm : RegIx), s.request = some .resolve → rm ≠ 4 → SharedErrors s ∧
    (4 ≤ s.addressSize → s.supply 1 = some [packByte 2 reg rm] →
      (s.supplyAt 1 4 = none → step s = .next (s.malformedAt 1 4)) ∧
      (∀ b0 b1 b2 b3 : Byte, s.supplyAt 1 4 = some [b0, b1, b2, b3] →
        step s = .next (s.returned 5 (.memory (s.reg rm + wordOfBytes b0 b1 b2 b3) s.widthA) reg)))

/-- Form of 40 R80, from the cursor at its ModRM byte to the descriptors, with every way its reads can fail. -/
def Obligations.SibBaseAddressesThroughTheBase : Prop :=
  ∀ (s : State) (reg base : RegIx) (scale : ScaleBits), s.request = some .resolve → base ≠ 5 → SharedErrors s ∧
    (4 ≤ s.addressSize → s.supply 1 = some [packByte 0 reg 4] →
      (s.supplyAt 1 1 = none → step s = .next (s.malformedAt 1 1)) ∧
      (s.supplyAt 1 1 = some [packByte scale 4 base] →
        step s = .next (s.returned 2 (.memory (s.reg base) s.widthA) reg)))

/-- Form of 40 R81, from the cursor at its ModRM byte to the descriptors, with every way its reads can fail. -/
def Obligations.SibBaseIdxAddsTheScaledIndex : Prop :=
  ∀ (s : State) (reg index base : RegIx) (scale : ScaleBits), s.request = some .resolve → index ≠ 4 → base ≠ 5 → SharedErrors s ∧
    (4 ≤ s.addressSize → s.supply 1 = some [packByte 0 reg 4] →
      (s.supplyAt 1 1 = none → step s = .next (s.malformedAt 1 1)) ∧
      (s.supplyAt 1 1 = some [packByte scale index base] →
        step s = .next (s.returned 2 (.memory ((s.reg index <<< scale.toNat) + s.reg base) s.widthA) reg)))

/-- Form of 40 R82, from the cursor at its ModRM byte to the descriptors, with every way its reads can fail. -/
def Obligations.SibAbs32IgnoresEveryRegister : Prop :=
  ∀ (s : State) (reg : RegIx) (scale : ScaleBits), s.request = some .resolve → SharedErrors s ∧
    (4 ≤ s.addressSize → s.supply 1 = some [packByte 0 reg 4] →
      (s.supplyAt 1 1 = none → step s = .next (s.malformedAt 1 1)) ∧
      (s.supplyAt 1 1 = some [packByte scale 4 5] →
        (s.supplyAt 2 4 = none → step s = .next (s.malformedAt 2 4)) ∧
        (∀ b0 b1 b2 b3 : Byte, s.supplyAt 2 4 = some [b0, b1, b2, b3] →
          step s = .next (s.returned 6 (.memory (wordOfBytes b0 b1 b2 b3) s.widthA) reg))))

/-- Form of 40 R83, from the cursor at its ModRM byte to the descriptors, with every way its reads can fail. -/
def Obligations.SibIdxAbs32AddsTheScaledIndex : Prop :=
  ∀ (s : State) (reg index : RegIx) (scale : ScaleBits), s.request = some .resolve → index ≠ 4 → SharedErrors s ∧
    (4 ≤ s.addressSize → s.supply 1 = some [packByte 0 reg 4] →
      (s.supplyAt 1 1 = none → step s = .next (s.malformedAt 1 1)) ∧
      (s.supplyAt 1 1 = some [packByte scale index 5] →
        (s.supplyAt 2 4 = none → step s = .next (s.malformedAt 2 4)) ∧
        (∀ b0 b1 b2 b3 : Byte, s.supplyAt 2 4 = some [b0, b1, b2, b3] →
          step s = .next (s.returned 6 (.memory ((s.reg index <<< scale.toNat) + wordOfBytes b0 b1 b2 b3) s.widthA) reg))))

/-- Form of 40 R84, from the cursor at its ModRM byte to the descriptors, with every way its reads can fail. -/
def Obligations.SibBaseD8AddsTheSignExtendedByte : Prop :=
  ∀ (s : State) (reg base : RegIx) (scale : ScaleBits), s.request = some .resolve → SharedErrors s ∧
    (4 ≤ s.addressSize → s.supply 1 = some [packByte 1 reg 4] →
      (s.supplyAt 1 1 = none → step s = .next (s.malformedAt 1 1)) ∧
      (s.supplyAt 1 1 = some [packByte scale 4 base] →
        (s.supplyAt 2 1 = none → step s = .next (s.malformedAt 2 1)) ∧
        (∀ d8 : Byte, s.supplyAt 2 1 = some [d8] →
          step s = .next (s.returned 3 (.memory (d8.signExtend 32 + s.reg base) s.widthA) reg))))

/-- Form of 40 R85, from the cursor at its ModRM byte to the descriptors, with every way its reads can fail. -/
def Obligations.SibBaseIdxD8SumsThreeTerms : Prop :=
  ∀ (s : State) (reg index base : RegIx) (scale : ScaleBits), s.request = some .resolve → index ≠ 4 → SharedErrors s ∧
    (4 ≤ s.addressSize → s.supply 1 = some [packByte 1 reg 4] →
      (s.supplyAt 1 1 = none → step s = .next (s.malformedAt 1 1)) ∧
      (s.supplyAt 1 1 = some [packByte scale index base] →
        (s.supplyAt 2 1 = none → step s = .next (s.malformedAt 2 1)) ∧
        (∀ d8 : Byte, s.supplyAt 2 1 = some [d8] →
          step s = .next (s.returned 3 (.memory (d8.signExtend 32 + (s.reg index <<< scale.toNat) + s.reg base) s.widthA) reg))))

/-- Form of 40 R86, from the cursor at its ModRM byte to the descriptors, with every way its reads can fail. -/
def Obligations.SibBaseD32AddsTheDisplacement : Prop :=
  ∀ (s : State) (reg base : RegIx) (scale : ScaleBits), s.request = some .resolve → SharedErrors s ∧
    (4 ≤ s.addressSize → s.supply 1 = some [packByte 2 reg 4] →
      (s.supplyAt 1 1 = none → step s = .next (s.malformedAt 1 1)) ∧
      (s.supplyAt 1 1 = some [packByte scale 4 base] →
        (s.supplyAt 2 4 = none → step s = .next (s.malformedAt 2 4)) ∧
        (∀ b0 b1 b2 b3 : Byte, s.supplyAt 2 4 = some [b0, b1, b2, b3] →
          step s = .next (s.returned 6 (.memory (wordOfBytes b0 b1 b2 b3 + s.reg base) s.widthA) reg))))

/-- Form of 40 R87, from the cursor at its ModRM byte to the descriptors, with every way its reads can fail. -/
def Obligations.SibBaseIdxD32SumsThreeTerms : Prop :=
  ∀ (s : State) (reg index base : RegIx) (scale : ScaleBits), s.request = some .resolve → index ≠ 4 → SharedErrors s ∧
    (4 ≤ s.addressSize → s.supply 1 = some [packByte 2 reg 4] →
      (s.supplyAt 1 1 = none → step s = .next (s.malformedAt 1 1)) ∧
      (s.supplyAt 1 1 = some [packByte scale index base] →
        (s.supplyAt 2 4 = none → step s = .next (s.malformedAt 2 4)) ∧
        (∀ b0 b1 b2 b3 : Byte, s.supplyAt 2 4 = some [b0, b1, b2, b3] →
          step s = .next (s.returned 6 (.memory (wordOfBytes b0 b1 b2 b3 + (s.reg index <<< scale.toNat) + s.reg base) s.widthA) reg))))

/-- Completion and frame of the forms that read nothing after their ModRM and SIB bytes. -/
def Obligations.FormsWithoutTrailerComplete : Prop :=
  ∀ (s : State) (reg rm index base : RegIx) (scale : ScaleBits),
    exec (.rmReg reg rm) s = .next (s.completed 0 (.register rm s.widthA) reg) ∧
    exec (.rmBase reg rm) s = .next (s.completed 0 (.memory (s.reg rm) s.widthA) reg) ∧
    exec (.sibBase reg scale base) s = .next (s.completed 0 (.memory (s.reg base) s.widthA) reg) ∧
    exec (.sibBaseIdx reg scale index base) s =
      .next (s.completed 0 (.memory ((s.reg index <<< scale.toNat) + s.reg base) s.widthA) reg)

/-- Completion and frame of the forms with an 8-bit displacement. -/
def Obligations.ByteDisplacementFormsComplete : Prop :=
  ∀ (s : State) (reg rm index base : RegIx) (scale : ScaleBits) (d8 : Byte), s.supply 1 = some [d8] →
    exec (.rmBaseD8 reg rm) s = .next (s.completed 1 (.memory (s.reg rm + d8.signExtend 32) s.widthA) reg) ∧
    exec (.sibBaseD8 reg scale base) s = .next (s.completed 1 (.memory (d8.signExtend 32 + s.reg base) s.widthA) reg) ∧
    exec (.sibBaseIdxD8 reg scale index base) s =
      .next (s.completed 1 (.memory (d8.signExtend 32 + (s.reg index <<< scale.toNat) + s.reg base) s.widthA) reg)

/-- Completion and frame of the forms with an absolute address or a 32-bit displacement. -/
def Obligations.WordTrailerFormsComplete : Prop :=
  ∀ (s : State) (reg rm index base : RegIx) (scale : ScaleBits) (b0 b1 b2 b3 : Byte), s.supply 4 = some [b0, b1, b2, b3] →
    exec (.rmAbs32 reg) s = .next (s.completed 4 (.memory (wordOfBytes b0 b1 b2 b3) s.widthA) reg) ∧
    exec (.rmBaseD32 reg rm) s = .next (s.completed 4 (.memory (s.reg rm + wordOfBytes b0 b1 b2 b3) s.widthA) reg) ∧
    exec (.sibAbs32 reg scale) s = .next (s.completed 4 (.memory (wordOfBytes b0 b1 b2 b3) s.widthA) reg) ∧
    exec (.sibIdxAbs32 reg scale index) s =
      .next (s.completed 4 (.memory ((s.reg index <<< scale.toNat) + wordOfBytes b0 b1 b2 b3) s.widthA) reg) ∧
    exec (.sibBaseD32 reg scale base) s = .next (s.completed 4 (.memory (wordOfBytes b0 b1 b2 b3 + s.reg base) s.widthA) reg) ∧
    exec (.sibBaseIdxD32 reg scale index base) s =
      .next (s.completed 4 (.memory (wordOfBytes b0 b1 b2 b3 + (s.reg index <<< scale.toNat) + s.reg base) s.widthA) reg)

/-- The 13 forms against the source's own algorithm (40 R89), which `Reference.resolve` transcribes line by line. -/
def Obligations.ResolveIsTheAlgorithmOfR89 : Prop :=
  ∀ s : State, s.request = some .resolve →
    step s = .next { s with request := none, cursor := (Reference.resolve s).2, delivered := some (Reference.resolve s).1 }

/-- The encoder, the trailer and the table of forms together: what stands in the stream is what is resolved (30 R53 to R56). -/
def Obligations.EncodedFormResolvesFromTheStream : Prop :=
  ∀ (s : State) (i : Instr) (trailer : List Byte), i.wellFormed = true → i.isForm = true → s.resolves →
    trailer.length = i.trailer.bytes → s.cursor + i.length ≤ Config.streamTop → s.denied = [] →
    (∀ k, k < i.length → s.stream.read (s.cursor + k) = ((encode i).bytes ++ trailer)[k]?) →
    step s = .next (s.returned i.length (Reference.rmOperand s (littleEndian trailer) i) (Reference.regField i))

/-- Address arithmetic (40 R88); the resolver's sign extensions are those of the primitive (41 R110). -/
def Obligations.AddressTermsMayBeReadSignedOrUnsigned : Prop :=
  ∀ (s : State) (reg rm index base : RegIx) (scale : ScaleBits),
    let x := fun i : RegIx => signExtendInt (s.reg i).toNat .w4
    let u := fun i : RegIx => (s.reg i).toNat
    let k : Nat := 2 ^ scale.toNat
    Reference.Addresses s (.sibBaseIdx reg scale index base) 0 reg (x index * k + x base) (u index * k + u base) ∧
    (∀ d : Byte, s.supply 1 = some [d] →
      let xd := signExtendInt d.toNat .w1
      let ud := Reference.sext 1 d.toNat
      Reference.Addresses s (.rmBaseD8 reg rm) 1 reg (x rm + xd) (u rm + ud) ∧
      Reference.Addresses s (.sibBaseD8 reg scale base) 1 reg (xd + x base) (ud + u base) ∧
      Reference.Addresses s (.sibBaseIdxD8 reg scale index base) 1 reg (xd + x index * k + x base) (ud + u index * k + u base)) ∧
    (∀ bs, s.supply 4 = some bs →
      let xd := signExtendInt (littleEndian bs) .w4
      let ud := littleEndian bs
      Reference.Addresses s (.rmBaseD32 reg rm) 4 reg (x rm + xd) (u rm + ud) ∧
      Reference.Addresses s (.sibIdxAbs32 reg scale index) 4 reg (x index * k + xd) (u index * k + ud) ∧
      Reference.Addresses s (.sibBaseD32 reg scale base) 4 reg (xd + x base) (ud + u base) ∧
      Reference.Addresses s (.sibBaseIdxD32 reg scale index base) 4 reg (xd + x index * k + x base) (ud + u index * k + u base))

/-- The displacement width (40 R90); `DispMod` is its whole domain. -/
def Obligations.DispWidthIsOneOrFour : Prop :=
  dispWidth .mod1 = 1 ∧ dispWidth .mod2 = 4 ∧ ∀ m : DispMod, (dispWidth m : Int) = 3 * (m.mod : Int) - 2

/-- The length table (30 R54). -/
def Obligations.LengthIsTheTableOfR54 : Prop :=
  ∀ (md scale : BitVec 2) (reg rm index base : RegIx),
    let modrm := packByte md reg rm
    ((decodeModRM modrm).getD (decodeSib modrm (packByte scale index base))).length =
      if md = 3 then 1
      else if md = 0 then (if rm = 4 then (if base = 5 then 6 else 2) else if rm = 5 then 5 else 1)
      else if md = 1 then (if rm = 4 then 3 else 2)
      else (if rm = 4 then 6 else 5)

/-- The cursor advance a caller relies on (10 R13, 70 R146). -/
def Obligations.CompletedResolveConsumesItsEncoding : Prop :=
  ∀ (s t : State) (a b : OperandDescriptor), s.request = some .resolve → step s = .next t →
    t.delivered = some (.operands a b) →
    ∃ i : Instr, i.wellFormed = true ∧ i.isForm = true ∧ t.cursor = s.cursor + i.length ∧ 1 ≤ i.length ∧ i.length ≤ 6 ∧
      ∀ k, k < (encode i).bytes.length → s.stream.read (s.cursor + k) = (encode i).bytes[k]?

/-- Cursor rules over every call (10 R13; 40 R91, R93). -/
def Obligations.StepMovesTheCursorForwardAtMostSix : Prop :=
  ∀ s t : State, step s = .next t →
    s.cursor ≤ t.cursor ∧ t.cursor ≤ s.cursor + 6 ∧ (s.request ≠ some .resolve → t.cursor = s.cursor) ∧
    (∀ e, s.request = some .resolve → t.delivered = some (.error e) → t.cursor ≤ s.cursor + 2)

/-- The frame of every operation: cursor advancement is the only mutation (40 R92), register reads are non-mutating (10 R11), nothing is written (20 R34). -/
def Obligations.StepChangesOnlyCursorAndDelivery : Prop :=
  ∀ s t : State, step s = .next t →
    t.regs = s.regs ∧ (∀ i, t.reg i = s.reg i) ∧ t.stream = s.stream ∧ (∀ p, t.stream.read p = s.stream.read p) ∧
    t.denied = s.denied ∧ t.report = s.report ∧ t.addressSize = s.addressSize ∧ t.widthA = s.widthA ∧
    t.widthB = s.widthB ∧ t.request = none

/-- Common properties of the primitives (41 R100); the refusals are the boundary's (93 U1, U2, U4, U14). -/
def Obligations.PrimitivesArePureFunctions : Prop :=
  ∀ (c : PrimCall), (∃ d : Delivery, (∀ e, d ≠ .error e) ∧
      ∀ s : State, s.request = some (.prim c) → step s = .next (s.accept.answered d)) ∨
    (∃ r : Refusal, ∀ s : State, s.request = some (.prim c) → step s = .refused r)

/-- The block retains nothing between operations (10 R10). -/
def Obligations.OutcomeDoesNotDependOnHistory : Prop :=
  ∀ (s : State) (d : Option Delivery), s.request ≠ none → step { s with delivered := d } = step s

/-- The set of registers read (40 R96 d); the register REG is named, not read (R73). -/
def Obligations.OnlyTheFormsRegistersAreRead : Prop :=
  ∀ (s t : State) (i : Instr) (regs : Vector Word 8), exec i s = .next t →
    (∀ r ∈ Reference.regsRead i, ({ s with regs := regs } : State).reg r = s.reg r) →
    exec i { s with regs := regs } = .next { t with regs := regs }

/-- The control inputs (10 R16); independence (40 R96 a, b). That every address_size of 4 or more computes alike is the spec's own decision (92 D7), which the model follows: log entry 10, DEDUCED, unsafe above 4. -/
def Obligations.WidthsOnlyLabelTheDescriptors : Prop :=
  ∀ (s t : State) (a b : OperandDescriptor) (wA : OpWidth) (wB : Option OpWidth) (size : Nat), s.request = some .resolve →
    step s = .next t → t.delivered = some (.operands a b) → 4 ≤ size →
    step { s with widthA := wA, widthB := wB, addressSize := size } =
      .next { t with widthA := wA, widthB := wB, addressSize := size,
                     delivered := some (.operands (Reference.withWidth a wA) (Reference.withWidth b (wB.getD wA))) }

/-- Errors inside resolve (40 R91), totality (R95), and no other exception (60 R122). -/
def Obligations.ResolveEndsInOperandsOrOneOfTwoErrors : Prop :=
  ∀ s : State, s.request = some .resolve →
    (s.addressSize < 4 ∧ step s = .next s.unsupported) ∨
    (4 ≤ s.addressSize ∧ ((∃ n rm reg, step s = .next (s.returned n rm reg)) ∨
      ∃ k n, (k = 0 ∧ n = 1 ∨ k = 1 ∧ (n = 1 ∨ n = 4) ∨ k = 2 ∧ (n = 1 ∨ n = 4)) ∧ s.supplyAt k n = none ∧
        (∀ j, j < k → s.supplyAt j 1 ≠ none) ∧ step s = .next (s.malformedAt k n)))

/-- Delivery of an error saves, masks and transfers nothing (60 R125); there is nothing to return from (R126). -/
def Obligations.BlockIsReadyAfterAnError : Prop :=
  ∀ (s t : State) (e : ResolveError) (q : Request), s.request = some .resolve → step s = .next t →
    t.delivered = some (.error e) →
    t = { s with request := none, cursor := t.cursor, delivered := some (.error e) } ∧
    step { t with request := some q } = step { s with request := some q, cursor := t.cursor }

/-- The invariant `State.inv` of Sys2Proof/Safety.lean over one step from any state that has it. -/
def Obligations.EveryStepKeepsTheInvariant : Prop :=
  ∀ s t : State, s.inv = true → step s = .next t → t.inv = true

/-- The block is idle after reset (10 R23). The other reset values are DESIGN CHOICES, log entry 6. -/
def Obligations.ResetHasTheInvariantAndIsIdle : Prop :=
  State.reset.inv = true ∧ State.reset.request = none

/-- sign_extend, integer form (41 R101). The last clause is no rule of the spec: that a value at or above 2^(8n) completes too, where 93 U3 would allow a refusal, is the model's DESIGN CHOICE (log entry 7); no result is claimed there. -/
def Obligations.SextIntSubtractsWhenTheSignBitIsSet : Prop :=
  ∀ (s : State) (value : Int) (n : OpWidth),
    (value < 0 → exec (.sextInt value n) s = .next (s.answered (.integer value))) ∧
    (∀ p : Nat, value = p → p < 2 ^ n.bits →
      ∃ r : Int, exec (.sextInt value n) s = .next (s.answered (.integer r)) ∧
        r = (if p.testBit (n.bits - 1) then (p : Int) - 2 ^ n.bits else p) ∧
        -(2 ^ (n.bits - 1) : Int) ≤ r ∧ r < 2 ^ (n.bits - 1) ∧
        ∀ w, n.bits ≤ w → portPattern w r = (BitVec.ofNat n.bits p).signExtend w) ∧
    (∃ r : Int, exec (.sextInt value n) s = .next (s.answered (.integer r)))

/-- sign_extend, byte-buffer form (41 R102); every buffer of at least one byte is a front and a last byte. That the LAST byte holds the sign rests on the byte order of log entry 8 (DEDUCED; 92 D6), and the refusal of a buffer longer than n on the spec's own decision D11 (log entry 9, DEDUCED). -/
def Obligations.SextBufFillsWithTheSign : Prop :=
  (∀ (s : State) (front : List Byte) (last : Byte) (n : OpWidth), front.length + 1 ≤ n.bytes →
    ∃ out : List Byte, exec (.sextBuf (front ++ [last]) n) s = .next (s.answered (.buffer out)) ∧ out.length = n.bytes ∧
      (∀ k, k < front.length + 1 → out[k]? = (front ++ [last])[k]?) ∧
      (∀ k, front.length + 1 ≤ k → k < n.bytes → out[k]? = some (if 0x80 ≤ last.toNat then 0xFF else 0x00))) ∧
  (∀ (s : State) (buf : List Byte) (n : OpWidth), n.bytes < buf.length → exec (.sextBuf buf n) s = .refused .bufferTooLong)

/-- The result decodes to the same signed integer as the input (41 R102, corner cases), by the byte order of log entry 8 (DEDUCED; 20 R32). -/
def Obligations.SextBufKeepsTheSignedValue : Prop :=
  ∀ (s : State) (buf : List Byte) (n : OpWidth), 1 ≤ buf.length → buf.length ≤ n.bytes →
    ∃ out : List Byte, exec (.sextBuf buf n) s = .next (s.answered (.buffer out)) ∧ out.length = n.bytes ∧
      Reference.signed n.bytes (littleEndian out) = Reference.signed buf.length (littleEndian buf)

/-- zero_extend, integer form (41 R103). The value for a negative argument and the refusal below -2^(8n-1) are the spec's own choice (92 D9), which the model follows: log entry 22 (DEDUCED) for the value, log entry 9 (DEDUCED) for the refusal; an integer wider than the port is log entry 7 (DESIGN CHOICE). -/
def Obligations.ZextIntIsTheIdentityOnPatterns : Prop :=
  ∀ (s : State) (value : Int) (n : OpWidth),
    (0 ≤ value → exec (.zextInt value n) s = .next (s.answered (.integer value))) ∧
    (-(2 ^ (8 * n.bytes - 1) : Int) ≤ value → value < 0 →
      exec (.zextInt value n) s = .next (s.answered (.integer (value + 2 ^ (8 * n.bytes))))) ∧
    (value < -(2 ^ (8 * n.bytes - 1) : Int) → exec (.zextInt value n) s = .refused .zeroExtendBelowRange) ∧
    (∀ w, 8 * n.bytes ≤ w → ∀ p : Nat, p < 2 ^ (8 * n.bytes) →
      portPattern w (zeroExtendInt p n) = (BitVec.ofNat (8 * n.bytes) p).setWidth w)

/-- zero_extend, byte-buffer form (41 R104). The refusal of a buffer longer than n is the spec's own decision D11 (log entry 9, DEDUCED), and the value of a buffer is that of the byte order of log entry 8 (DEDUCED). -/
def Obligations.ZextBufPadsWithZeros : Prop :=
  (∀ (s : State) (buf : List Byte) (n : OpWidth), 1 ≤ buf.length → buf.length ≤ n.bytes →
    ∃ out : List Byte, exec (.zextBuf buf n) s = .next (s.answered (.buffer out)) ∧ out.length = n.bytes ∧
      (∀ k, k < buf.length → out[k]? = buf[k]?) ∧ (∀ k, buf.length ≤ k → k < n.bytes → out[k]? = some 0x00) ∧
      littleEndian out = littleEndian buf) ∧
  (∀ (s : State) (buf : List Byte) (n : OpWidth), n.bytes < buf.length → exec (.zextBuf buf n) s = .refused .bufferTooLong)

/-- Never a value for an undescribed case (93 U1, 92 D11; log entry 9), and no refusal inside the contract. -/
def Obligations.BuffersOutsideTheContractAreRefused : Prop :=
  ∀ (s : State) (buf : List Byte) (n : OpWidth),
    (buf = [] → exec (.sextBuf buf n) s = .refused .bufferEmpty ∧ exec (.zextBuf buf n) s = .refused .bufferEmpty) ∧
    (n.bytes < buf.length → exec (.sextBuf buf n) s = .refused .bufferTooLong ∧ exec (.zextBuf buf n) s = .refused .bufferTooLong) ∧
    (1 ≤ buf.length → buf.length ≤ n.bytes →
      (∃ t, exec (.sextBuf buf n) s = .next t) ∧ (∃ t, exec (.zextBuf buf n) s = .next t))

/-- parity (41 R105), against a count of the set bits. -/
def Obligations.ParityIsOneWhenTheBitsAreEven : Prop :=
  (∀ (s : State) (b : Byte), exec (.parity b.toNat) s =
    .next (s.answered (.bit (decide (((List.range 8).filter (fun k => b.getLsbD k)).length % 2 = 0))))) ∧
  ((List.range 256).filter (fun v => parityEven (BitVec.ofNat 8 v))).length = 128

/-- MSB (41 R106) with the boundary values. That higher bits are ignored is read from the definition, as R106 itself marks it; that n = 8 is a width of MSB at all is the spec's own decision D10 (log entry 21, DEDUCED). -/
def Obligations.MsbIsBitEightNMinusOne : Prop :=
  ∀ (s : State) (n : OpWidth),
    (∀ v : Nat, exec (.msb v n) s = .next (s.answered (.bit (decide (v / 2 ^ (8 * n.bytes - 1) % 2 = 1)))) ∧
      exec (.msb v n) s = exec (.msb (v % 2 ^ (8 * n.bytes) : Nat) n) s) ∧
    msbOf 0 n = false ∧ msbOf (2 ^ (8 * n.bytes - 1) - 1) n = false ∧ msbOf (2 ^ (8 * n.bytes - 1)) n = true ∧
    msbOf (2 ^ (8 * n.bytes) - 1) n = true

/-- LSB (41 R107); that n = 8 is among its widths is the spec's own decision D10 (log entry 21, DEDUCED). -/
def Obligations.LsbIsBitZero : Prop :=
  ∀ (s : State) (v : Nat) (n : OpWidth), exec (.lsb v n) s = .next (s.answered (.bit (decide (v % 2 = 1))))

/-- The round-trip law of the source (41 R108), under the spec's own choices for zero_extend of a negative value and for the widths (92 D9, D10; log entries 22 and 21). -/
def Obligations.SignExtendUndoesZeroExtend : Prop :=
  ∀ (s : State) (n : OpWidth),
    (∀ x : Int, -(2 ^ (8 * n.bytes - 1) : Int) ≤ x → x ≤ 2 ^ (8 * n.bytes - 1) - 1 →
      ∃ y, exec (.zextInt x n) s = .next (s.answered (.integer y)) ∧ exec (.sextInt y n) s = .next (s.answered (.integer x))) ∧
    (∀ buf : List Byte, buf.length = n.bytes →
      ∃ out, exec (.zextBuf buf n) s = .next (s.answered (.buffer out)) ∧ exec (.sextBuf out n) s = .next (s.answered (.buffer buf)))

/-- Not representable on the ports (93 U4). -/
def Obligations.BytesOutsideTheStatedDomainAreRefused : Prop :=
  ∀ (s : State) (value : Int) (n : OpWidth),
    (value < 0 ∨ 255 < value → exec (.parity value) s = .refused .parityNotAByte) ∧
    (value < 0 → exec (.msb value n) s = .refused .negativePattern ∧ exec (.lsb value n) s = .refused .negativePattern)

/-- Error codes (60 R123). The source gives names and causes only: the numbers are the spec's own decision (92 D12), which the model follows in log entry 20 (DEDUCED). R123 speaks of `resolve` alone: code 0 for the result of a primitive is the model's extension of it (DESIGN CHOICE, log entry 20). -/
def Obligations.ErrorCodesAreOneAndTwo : Prop :=
  ∀ (d : Delivery),
    (d.code = 1 ↔ ∃ a, d = .error (.unsupportedMode a)) ∧ (d.code = 2 ↔ ∃ p n r, d = .error (.malformedStream p n r)) ∧
    (d.code = 0 ↔ ∀ e, d ≠ .error e)
end

