-- ==== Sys2Proof/Laws/Decode.lean ====
section
/-! SUPPORT. The fields of a packed byte and the byte of its fields; which forms a ModRM byte selects. -/

namespace Sys2Proof

@[simp] theorem fieldLow_packByte (t : BitVec 2) (m l : RegIx) : fieldLow (packByte t m l) = l := by
  revert t m l; decide

@[simp] theorem fieldMid_packByte (t : BitVec 2) (m l : RegIx) : fieldMid (packByte t m l) = m := by
  revert t m l; decide

@[simp] theorem fieldTop_packByte (t : BitVec 2) (m l : RegIx) : fieldTop (packByte t m l) = t := by
  revert t m l; decide

/-- The three fields are the whole byte. -/
theorem packByte_fields (v : Byte) : packByte (fieldTop v) (fieldMid v) (fieldLow v) = v := by
  revert v; decide

/-- Every byte is packed from three fields. -/
theorem exists_packByte (v : Byte) : ∃ t m l, v = packByte t m l := ⟨_, _, _, (packByte_fields v).symm⟩

/-! The form of a packed ModRM byte, one lemma for each format M row, and of a packed SIB byte, one for each format MS row (30 R56). -/

theorem decodeModRM_rmReg : ∀ reg rm, decodeModRM (packByte 3 reg rm) = some (.rmReg reg rm) := by decide
theorem decodeModRM_rmBase : ∀ reg rm, rm ≠ 4 → rm ≠ 5 → decodeModRM (packByte 0 reg rm) = some (.rmBase reg rm) := by decide
theorem decodeModRM_rmAbs32 : ∀ reg, decodeModRM (packByte 0 reg 5) = some (.rmAbs32 reg) := by decide
theorem decodeModRM_rmBaseD8 : ∀ reg rm, rm ≠ 4 → decodeModRM (packByte 1 reg rm) = some (.rmBaseD8 reg rm) := by decide
theorem decodeModRM_rmBaseD32 : ∀ reg rm, rm ≠ 4 → decodeModRM (packByte 2 reg rm) = some (.rmBaseD32 reg rm) := by decide
theorem decodeModRM_sib : ∀ md reg, md ≠ 3 → decodeModRM (packByte md reg 4) = none := by decide

theorem decodeSib_packByte (md scale : BitVec 2) (reg rm index base : RegIx) :
    decodeSib (packByte md reg rm) (packByte scale index base) =
      if md = 1 then (if index = 4 then .sibBaseD8 reg scale base else .sibBaseIdxD8 reg scale index base)
      else if md = 2 then (if index = 4 then .sibBaseD32 reg scale base else .sibBaseIdxD32 reg scale index base)
      else if base = 5 then (if index = 4 then .sibAbs32 reg scale else .sibIdxAbs32 reg scale index)
      else (if index = 4 then .sibBase reg scale base else .sibBaseIdx reg scale index base) := by
  simp only [decodeSib, fieldLow_packByte, fieldMid_packByte, fieldTop_packByte]

end Sys2Proof
end

