-- ==== Sys2Proof/Laws/Memory.lean ====
section
/-! SUPPORT. The stream as canonical data: writing keeps the form, a read after a write, and what a span of bytes is. -/

namespace Sys2Proof.Machine

@[simp] theorem Memory.read_nil (p : Nat) : Memory.read [] p = none := rfl

theorem Memory.read_cons (q : Nat) (b : Byte) (m : Memory) (p : Nat) :
    Memory.read ((q, b) :: m) p = if q = p then some b else Memory.read m p := rfl

theorem Memory.wfFrom_cons (low : Option Nat) (q : Nat) (b : Byte) (m : Memory) :
    Memory.wfFrom low ((q, b) :: m) = true ↔
      (∀ l, low = some l → l < q) ∧ q < Config.streamTop ∧ Memory.wfFrom (some q) m = true := by
  cases low <;> simp [Memory.wfFrom, and_assoc]

/-- A canonical list above `low` lists nothing at or below `low`. -/
theorem Memory.read_below {m : Memory} {low p : Nat} (h : Memory.wfFrom (some low) m = true) (hp : p ≤ low) : m.read p = none := by
  induction m generalizing low with
  | nil => rfl
  | cons c m ih =>
    obtain ⟨q, b⟩ := c
    obtain ⟨hlow, -, hm⟩ := (Memory.wfFrom_cons _ _ _ _).1 h
    have := hlow low rfl
    rw [Memory.read_cons, if_neg (by omega)]
    exact ih hm (by omega)

theorem Memory.insert_wfFrom {m : Memory} {low : Option Nat} {p : Nat} (b : Byte) (h : Memory.wfFrom low m = true)
    (hlow : ∀ l, low = some l → l < p) (hp : p < Config.streamTop) : Memory.wfFrom low (m.insert p b) = true := by
  induction m generalizing low with
  | nil => exact (Memory.wfFrom_cons ..).2 ⟨hlow, hp, rfl⟩
  | cons c m ih =>
    obtain ⟨q, c⟩ := c
    obtain ⟨hq, hqt, hm⟩ := (Memory.wfFrom_cons ..).1 h
    unfold Memory.insert
    split
    · exact (Memory.wfFrom_cons ..).2 ⟨hlow, hp, (Memory.wfFrom_cons ..).2 ⟨by rintro _ ⟨⟩; assumption, hqt, hm⟩⟩
    · split
      · subst p; exact (Memory.wfFrom_cons ..).2 ⟨hq, hqt, hm⟩
      · exact (Memory.wfFrom_cons ..).2 ⟨hq, hqt, ih hm (by rintro _ ⟨⟩; omega)⟩

/-- Writing keeps the canonical form. -/
theorem Memory.write_wf {m : Memory} (p : Nat) (b : Byte) (h : m.wf = true) : (m.write p b).wf = true := by
  unfold Memory.write
  split
  · exact Memory.insert_wfFrom b h (by simp) ‹_›
  · exact h

/-- Writing a run of bytes keeps the canonical form. -/
theorem Memory.writeBytes_wf {m : Memory} (p : Nat) (bs : List Byte) (h : m.wf = true) : (m.writeBytes p bs).wf = true := by
  induction bs generalizing m p with
  | nil => exact h
  | cons b bs ih => exact ih (p + 1) (Memory.write_wf p b h)

theorem Memory.read_insert (m : Memory) (p q : Nat) (b : Byte) :
    (m.insert p b).read q = if p = q then some b else m.read q := by
  induction m with
  | nil => rfl
  | cons c m ih =>
    obtain ⟨r, c⟩ := c
    unfold Memory.insert
    split
    · rfl
    · split
      · subst p; simp only [Memory.read_cons]; split <;> rfl
      · simp only [Memory.read_cons, ih]; split <;> split <;> first | rfl | omega

/-- A byte written below 2^32 is read back, every other position reads as before. -/
theorem Memory.read_write (m : Memory) (p q : Nat) (b : Byte) (hp : p < Config.streamTop) :
    (m.write p b).read q = if p = q then some b else m.read q := by
  rw [Memory.write, if_pos hp, Memory.read_insert]

/-- A run of bytes is read back byte by byte, positions outside it read as before. -/
theorem Memory.read_writeBytes (m : Memory) (p q : Nat) (bs : List Byte) (hp : p + bs.length ≤ Config.streamTop) :
    (m.writeBytes p bs).read q = if p ≤ q ∧ q < p + bs.length then bs[q - p]? else m.read q := by
  induction bs generalizing m p with
  | nil => rw [if_neg (by simp)]; rfl
  | cons b bs ih =>
    simp only [List.length_cons] at hp ⊢
    rw [Memory.writeBytes, ih _ _ (by omega), Memory.read_write _ _ _ _ (by omega)]
    by_cases h : p = q
    · subst h; simp
    · by_cases h' : p + 1 ≤ q ∧ q < p + 1 + bs.length
      · rw [if_pos h', if_pos (by omega), show q - p = (q - (p + 1)) + 1 by omega, List.getElem?_cons_succ]
      · rw [if_neg h', if_neg h, if_neg (by omega)]

/-- A span is exactly the listed bytes, in order. -/
theorem Memory.span_eq_some {m : Memory} {p n : Nat} {bs : List Byte} :
    m.span p n = some bs ↔ bs.length = n ∧ ∀ k, k < n → m.read (p + k) = bs[k]? := by
  induction n generalizing p bs with
  | zero => cases bs <;> simp [Memory.span]
  | succ n ih =>
    unfold Memory.span
    constructor
    · intro h
      split at h
      · rename_i b bs' hb hbs
        obtain ⟨hl, hr⟩ := ih.1 hbs
        cases h
        refine ⟨by simp [hl], fun k hk => ?_⟩
        cases k with
        | zero => simpa using hb
        | succ k => simpa [Nat.add_assoc, Nat.add_comm 1 k] using hr k (by omega)
      · cases h
    · rintro ⟨hl, hr⟩
      cases bs with
      | nil => simp at hl
      | cons b bs =>
        have h0 : m.read p = some b := by simpa using hr 0 (by omega)
        have h1 : m.span (p + 1) n = some bs := ih.2 ⟨by simpa using hl, fun k hk => by
          simpa [Nat.add_assoc, Nat.add_comm 1 k] using hr (k + 1) (by omega)⟩
        rw [h0, h1]

/-- A span fails exactly where one of its bytes is missing. -/
theorem Memory.span_eq_none {m : Memory} {p n : Nat} : m.span p n = none ↔ ∃ k, k < n ∧ m.read (p + k) = none := by
  induction n generalizing p with
  | zero => simp [Memory.span]
  | succ n ih =>
    have key : m.span p (n + 1) = none ↔ m.read p = none ∨ m.span (p + 1) n = none := by
      rw [Memory.span]
      cases m.read p <;> cases m.span (p + 1) n <;> simp
    rw [key, ih]
    constructor
    · rintro (h | ⟨k, hk, h⟩)
      · exact ⟨0, by omega, h⟩
      · exact ⟨k + 1, by omega, by rwa [show p + (k + 1) = p + 1 + k by omega]⟩
    · rintro ⟨k, hk, h⟩
      cases k with
      | zero => exact .inl h
      | succ k => exact .inr ⟨k, by omega, by rwa [show p + 1 + k = p + (k + 1) by omega]⟩

/-- A little-endian value fits its bytes. -/
theorem littleEndian_lt (bs : List Byte) : littleEndian bs < 2 ^ (8 * bs.length) := by
  induction bs with
  | nil => simp [littleEndian]
  | cons b bs ih =>
    have := b.isLt
    rw [littleEndian, List.length_cons, show 8 * (bs.length + 1) = 8 * bs.length + 8 by omega, Nat.pow_add]
    omega

end Sys2Proof.Machine
end

