-- ==== Sys2Proof/Laws/State.lean ====
section
/-! SUPPORT. One lemma for each field and each update of the state. -/

namespace Sys2Proof.Machine

variable (s : State) (n : Nat) (d : Delivery)

@[simp] theorem State.advance_cursor : (s.advance n).cursor = s.cursor + n := rfl
@[simp] theorem State.advance_regs : (s.advance n).regs = s.regs := rfl
@[simp] theorem State.advance_stream : (s.advance n).stream = s.stream := rfl
@[simp] theorem State.advance_denied : (s.advance n).denied = s.denied := rfl
@[simp] theorem State.advance_report : (s.advance n).report = s.report := rfl
@[simp] theorem State.advance_addressSize : (s.advance n).addressSize = s.addressSize := rfl
@[simp] theorem State.advance_widthA : (s.advance n).widthA = s.widthA := rfl
@[simp] theorem State.advance_widthB : (s.advance n).widthB = s.widthB := rfl
@[simp] theorem State.advance_request : (s.advance n).request = s.request := rfl
@[simp] theorem State.advance_delivered : (s.advance n).delivered = s.delivered := rfl
@[simp] theorem State.accept_cursor : s.accept.cursor = s.cursor := rfl
@[simp] theorem State.accept_regs : s.accept.regs = s.regs := rfl
@[simp] theorem State.accept_stream : s.accept.stream = s.stream := rfl
@[simp] theorem State.accept_denied : s.accept.denied = s.denied := rfl
@[simp] theorem State.accept_report : s.accept.report = s.report := rfl
@[simp] theorem State.accept_addressSize : s.accept.addressSize = s.addressSize := rfl
@[simp] theorem State.accept_widthA : s.accept.widthA = s.widthA := rfl
@[simp] theorem State.accept_widthB : s.accept.widthB = s.widthB := rfl
@[simp] theorem State.accept_request : s.accept.request = none := rfl
@[simp] theorem State.accept_delivered : s.accept.delivered = s.delivered := rfl
@[simp] theorem State.deliver_cursor : (s.deliver d).cursor = s.cursor := rfl
@[simp] theorem State.deliver_regs : (s.deliver d).regs = s.regs := rfl
@[simp] theorem State.deliver_stream : (s.deliver d).stream = s.stream := rfl
@[simp] theorem State.deliver_denied : (s.deliver d).denied = s.denied := rfl
@[simp] theorem State.deliver_report : (s.deliver d).report = s.report := rfl
@[simp] theorem State.deliver_addressSize : (s.deliver d).addressSize = s.addressSize := rfl
@[simp] theorem State.deliver_widthA : (s.deliver d).widthA = s.widthA := rfl
@[simp] theorem State.deliver_widthB : (s.deliver d).widthB = s.widthB := rfl
@[simp] theorem State.deliver_request : (s.deliver d).request = s.request := rfl
@[simp] theorem State.deliver_delivered : (s.deliver d).delivered = some d := rfl

@[simp] theorem State.reg_advance (i : RegIx) : (s.advance n).reg i = s.reg i := rfl
@[simp] theorem State.reg_accept (i : RegIx) : s.accept.reg i = s.reg i := rfl
@[simp] theorem State.reg_deliver (i : RegIx) : (s.deliver d).reg i = s.reg i := rfl
@[simp] theorem State.effectiveWidthB_advance : (s.advance n).effectiveWidthB = s.effectiveWidthB := rfl
@[simp] theorem State.effectiveWidthB_accept : s.accept.effectiveWidthB = s.effectiveWidthB := rfl
@[simp] theorem State.supply_accept : s.accept.supply n = s.supply n := rfl
@[simp] theorem State.supply_deliver : (s.deliver d).supply n = s.supply n := rfl

theorem State.advance_advance (m : Nat) : (s.advance n).advance m = s.advance (n + m) := by
  simp [State.advance, Nat.add_assoc]

theorem State.advance_accept : s.accept.advance n = (s.advance n).accept := rfl

/-- Every register index names one of the eight registers. -/
theorem State.reg_eq_getElem (i : RegIx) : s.reg i = s.regs[i.toNat]'(i.isLt) := rfl

end Sys2Proof.Machine
end

