-- ==== Sys2Proof/Laws/Ops.lean ====
section
/-! SUPPORT. What each shared operation can do, said once; later proofs cite these and do not unfold the operations. -/

namespace Sys2Proof.Machine

/-- A supplied read gives exactly the stream's bytes, and only inside the stream and where nothing denies it (20 R35). -/
theorem State.supply_eq_some {s : State} {n : Nat} {bs : List Byte} :
    s.supply n = some bs ↔
      s.cursor + n ≤ Config.streamTop ∧ (s.cursor, n) ∉ s.denied ∧ bs.length = n ∧ ∀ k, k < n → s.stream.read (s.cursor + k) = bs[k]? := by
  unfold State.supply
  split
  · simp; omega
  · split
    · simp_all
    · rw [Memory.span_eq_some]; constructor
      · rintro ⟨h1, h2⟩; exact ⟨by omega, ‹_›, h1, h2⟩
      · rintro ⟨-, -, h⟩; exact h

theorem State.supply_length {s : State} {n : Nat} {bs : List Byte} (h : s.supply n = some bs) : bs.length = n :=
  (State.supply_eq_some.1 h).2.2.1

/-- The value of a supplied read fits its size. -/
theorem State.supply_value_lt {s : State} {n : Nat} {bs : List Byte} (h : s.supply n = some bs) : littleEndian bs < 2 ^ (8 * n) :=
  State.supply_length h ▸ littleEndian_lt bs

/-- `FetchRead` that is supplied goes on past the bytes. -/
theorem fetchRead_some {n : Nat} {s : State} {bs : List Byte} (go : Nat → State → Answer) (h : s.supply n = some bs) :
    fetchRead n s go = go (littleEndian bs) (s.advance n) := by
  simp [fetchRead, h]

/-- `FetchRead` that is not supplied ends the call, the cursor not moved. -/
theorem fetchRead_none {n : Nat} {s : State} (go : Nat → State → Answer) (h : s.supply n = none) :
    fetchRead n s go = .next (s.deliver (.error (.malformedStream s.cursor n s.report))) := by
  simp [fetchRead, h, raise]

/-- All that `FetchRead` can do. -/
theorem fetchRead_cases (n : Nat) (s : State) (go : Nat → State → Answer) :
    (∃ bs, s.supply n = some bs ∧ fetchRead n s go = go (littleEndian bs) (s.advance n)) ∨
    (s.supply n = none ∧ fetchRead n s go = .next (s.deliver (.error (.malformedStream s.cursor n s.report)))) := by
  cases h : s.supply n with
  | none => exact .inr ⟨rfl, fetchRead_none go h⟩
  | some bs => exact .inl ⟨bs, rfl, fetchRead_some go h⟩

@[simp] theorem littleEndian_one (b : Byte) : littleEndian [b] = b.toNat := by simp [littleEndian]

/-- One byte read as a displacement is its sign extension. -/
@[simp] theorem sext32_byte (b : Byte) : sext32 1 b.toNat = b.signExtend 32 := by simp [sext32]

/-- A 4-byte value is already 32 bits wide. -/
@[simp] theorem sext32_word (v : Nat) : sext32 4 v = BitVec.ofNat 32 v := by
  simp [sext32, BitVec.signExtend_eq]

/-- `readDisp` on MOD = 01 that is supplied adds the sign-extended byte. -/
theorem readDisp_mod1 {s : State} {b : Byte} (go : Word → State → Answer) (h : s.supply 1 = some [b]) :
    readDisp .mod1 s go = go (b.signExtend 32) (s.advance 1) := by
  simp [readDisp, dispWidth, DispMod.mod, fetchRead_some _ h]

/-- `readDisp` on MOD = 10 that is supplied adds the 4-byte value. -/
theorem readDisp_mod2 {s : State} {bs : List Byte} (go : Word → State → Answer) (h : s.supply 4 = some bs) :
    readDisp .mod2 s go = go (BitVec.ofNat 32 (littleEndian bs)) (s.advance 4) := by
  simp [readDisp, dispWidth, DispMod.mod, fetchRead_some _ h]

/-- `readAbs32` that is supplied takes the 4-byte value. -/
theorem readAbs32_some {s : State} {bs : List Byte} (go : Word → State → Answer) (h : s.supply 4 = some bs) :
    readAbs32 s go = go (BitVec.ofNat 32 (littleEndian bs)) (s.advance 4) := by
  simp [readAbs32, fetchRead_some _ h]

/-- All that a buffer guard can do: refuse outside `1 <= L <= n`, else go on. -/
theorem withBuffer_fits {buf : List Byte} {n : OpWidth} (go : Answer) (h0 : buf.length ≠ 0) (h : buf.length ≤ n.bytes) :
    withBuffer buf n go = go := by
  simp [withBuffer, List.length_eq_zero_iff.not.1 h0, Nat.not_lt.2 h]

/-- The little-endian value of four bytes is below 2^32 and is their number in base 256 (20 R31). -/
theorem littleEndian_four (b0 b1 b2 b3 : Byte) :
    littleEndian [b0, b1, b2, b3] = b0.toNat + 2 ^ 8 * b1.toNat + 2 ^ 16 * b2.toNat + 2 ^ 24 * b3.toNat := by
  simp only [littleEndian]; omega

end Sys2Proof.Machine
end

