-- ==== Sys2Proof/Laws/PerInstr.lean ====
section
/-! SUPPORT. The family `EncodingSize`: for every instruction, the bytes of its encoding and its trailer are what R52 to R54 allow: a form has
one or two bytes before its trailer and at most six in all, a primitive has no stream bytes. -/

namespace Sys2Proof.Laws.EncodingSize

/-- A form is 1 or 2 bytes and a trailer of 0, 1 or 4, at most 6 in all (R54); a primitive takes no stream byte (R100). -/
def Statement (i : Instr) : Prop :=
  if i.isForm then
    1 ≤ (encode i).bytes.length ∧ (encode i).bytes.length ≤ 2 ∧ i.length = (encode i).bytes.length + i.trailer.bytes ∧ i.length ≤ 6
  else i.length = 0

/-- The family at every instruction, by its constructors. -/
theorem every (i : Instr) : Statement i := by
  cases i <;> simp [Statement, Instr.isForm, Instr.length, Instr.trailer, Trailer.bytes, encode, Code.bytes]

theorem rmReg (reg rm : RegIx) : Statement (.rmReg reg rm) := every _
theorem rmAbs32 (reg : RegIx) : Statement (.rmAbs32 reg) := every _
theorem rmBase (reg rm : RegIx) : Statement (.rmBase reg rm) := every _
theorem rmBaseD8 (reg rm : RegIx) : Statement (.rmBaseD8 reg rm) := every _
theorem rmBaseD32 (reg rm : RegIx) : Statement (.rmBaseD32 reg rm) := every _
theorem sibAbs32 (reg : RegIx) (scale : ScaleBits) : Statement (.sibAbs32 reg scale) := every _
theorem sibIdxAbs32 (reg : RegIx) (scale : ScaleBits) (index : RegIx) : Statement (.sibIdxAbs32 reg scale index) := every _
theorem sibBase (reg : RegIx) (scale : ScaleBits) (base : RegIx) : Statement (.sibBase reg scale base) := every _
theorem sibBaseIdx (reg : RegIx) (scale : ScaleBits) (index base : RegIx) : Statement (.sibBaseIdx reg scale index base) := every _
theorem sibBaseD8 (reg : RegIx) (scale : ScaleBits) (base : RegIx) : Statement (.sibBaseD8 reg scale base) := every _
theorem sibBaseIdxD8 (reg : RegIx) (scale : ScaleBits) (index base : RegIx) : Statement (.sibBaseIdxD8 reg scale index base) := every _
theorem sibBaseD32 (reg : RegIx) (scale : ScaleBits) (base : RegIx) : Statement (.sibBaseD32 reg scale base) := every _
theorem sibBaseIdxD32 (reg : RegIx) (scale : ScaleBits) (index base : RegIx) : Statement (.sibBaseIdxD32 reg scale index base) := every _
theorem sextInt (value : Int) (n : OpWidth) : Statement (.sextInt value n) := every _
theorem sextBuf (buf : List Byte) (n : OpWidth) : Statement (.sextBuf buf n) := every _
theorem zextInt (value : Int) (n : OpWidth) : Statement (.zextInt value n) := every _
theorem zextBuf (buf : List Byte) (n : OpWidth) : Statement (.zextBuf buf n) := every _
theorem parity (value : Int) : Statement (.parity value) := every _
theorem msb (value : Int) (n : OpWidth) : Statement (.msb value n) := every _
theorem lsb (value : Int) (n : OpWidth) : Statement (.lsb value n) := every _

end Sys2Proof.Laws.EncodingSize
end

