-- ==== Sys2Proof/Laws/Step.lean ====
section
/-! SUPPORT. What a step can do, said once: idle, a primitive, or `resolve` in its three stages; and all that a meaning can change. -/

namespace Sys2Proof.Machine

theorem step_idle {s : State} (h : s.request = none) : step s = .next s := by simp [step, operate, h]

theorem step_resolve {s : State} (h : s.request = some .resolve) : step s = resolve exec s.accept := by simp [step, operate, h]

theorem step_prim {s : State} {c : PrimCall} (h : s.request = some (.prim c)) : step s = evaluate exec c s.accept := by
  simp [step, operate, h]

/-- A mode below 32 bits is refused before anything is read (40 R71). -/
theorem resolve_unsupported {run : Instr → State → Answer} {s : State} (h : s.addressSize < 4) :
    resolve run s = .next (s.deliver (.error (.unsupportedMode s.addressSize))) := by
  simp [resolve, Config.minAddressSize, h, raise]

/-- In an accepted mode `resolve` is a read of the ModRM byte and then the form it selects (40 R72). -/
theorem resolve_reads {run : Instr → State → Answer} {s : State} (h : 4 ≤ s.addressSize) :
    resolve run s = fetchRead 1 s fun modrm t => selectForm run (BitVec.ofNat 8 modrm) t := by
  simp [resolve, Config.minAddressSize, Nat.not_lt.2 h]

/-- A ModRM byte that is a form by itself runs at once. -/
theorem selectForm_some {run : Instr → State → Answer} {m : Byte} {i : Instr} (s : State) (h : decodeModRM m = some i) :
    selectForm run m s = run i s := by simp [selectForm, h]

/-- A ModRM byte that announces a SIB byte reads it first (40 R79). -/
theorem selectForm_none {run : Instr → State → Answer} {m : Byte} (s : State) (h : decodeModRM m = none) :
    selectForm run m s = fetchRead 1 s fun sib t => run (decodeSib m (BitVec.ofNat 8 sib)) t := by simp [selectForm, h]

/-- A supplied read of one byte is one byte. -/
theorem State.supply_byte {s : State} {bs : List Byte} (h : s.supply 1 = some bs) : ∃ b, bs = [b] :=
  List.length_eq_one_iff.1 (State.supply_length h)

/-- A supplied read of four bytes is four bytes, and its value is their little-endian word (20 R31). -/
theorem State.supply_word {s : State} {bs : List Byte} (h : s.supply 4 = some bs) :
    ∃ b0 b1 b2 b3, bs = [b0, b1, b2, b3] := by
  have hl := State.supply_length h
  match bs, hl with
  | [b0, b1, b2, b3], _ => exact ⟨b0, b1, b2, b3, rfl⟩

/-- All that a supplied or unsupplied read followed by a return can answer. -/
theorem fetchRead_next {n : Nat} {s t : State} {go : Nat → State → Answer} (h : fetchRead n s go = .next t) :
    (∃ bs, s.supply n = some bs ∧ go (littleEndian bs) (s.advance n) = .next t) ∨
    (s.supply n = none ∧ t = s.deliver (.error (.malformedStream s.cursor n s.report))) := by
  rcases fetchRead_cases n s go with ⟨bs, hbs, he⟩ | ⟨hn, he⟩
  · exact .inl ⟨bs, hbs, he ▸ h⟩
  · exact .inr ⟨hn, by rw [he] at h; cases h; rfl⟩

/-- What is delivered in place after a short advance: the one shape of every next state of a meaning. -/
def Near (n : Nat) (s t : State) : Prop := ∃ k d, k ≤ n ∧ t = (s.advance k).deliver d

theorem Near.deliver (n : Nat) (s : State) (d : Delivery) : Near n s (s.deliver d) := ⟨0, d, Nat.zero_le _, rfl⟩

theorem Near.advance {m n k : Nat} {s t : State} (h : Near m (s.advance k) t) (hk : k + m ≤ n) : Near n s t := by
  obtain ⟨j, d, hj, rfl⟩ := h
  exact ⟨k + j, d, by omega, by rw [State.advance_advance]⟩

theorem returnOperands_near {f : OpWidth → OperandDescriptor} {reg : RegIx} {s t : State} (h : returnOperands f reg s = .next t) :
    Near 0 s t := by
  cases h; exact Near.deliver ..

theorem deliver_near {s t : State} {d : Delivery} {n : Nat} (h : (.next (s.deliver d) : Answer) = .next t) : Near n s t := by
  cases h; exact Near.deliver ..

theorem fetchRead_near {m n k : Nat} {s t : State} {go : Nat → State → Answer} (h : fetchRead k s go = .next t) (hk : k + m ≤ n)
    (hgo : ∀ v, go v (s.advance k) = .next t → Near m (s.advance k) t) : Near n s t := by
  rcases fetchRead_next h with ⟨bs, -, h'⟩ | ⟨-, rfl⟩
  · exact (hgo _ h').advance hk
  · exact Near.deliver ..

theorem readDisp_near {m : DispMod} {s t : State} {go : Word → State → Answer} (h : readDisp m s go = .next t)
    (hgo : ∀ w u, go w u = .next t → Near 0 u t) : Near 4 s t :=
  fetchRead_near (m := 0) h (by cases m <;> simp [dispWidth, DispMod.mod]) fun _ => hgo _ _

theorem readAbs32_near {s t : State} {go : Word → State → Answer} (h : readAbs32 s go = .next t)
    (hgo : ∀ w u, go w u = .next t → Near 0 u t) : Near 4 s t :=
  fetchRead_near (m := 0) h (by omega) fun _ => hgo _ _

theorem withBuffer_near {buf : List Byte} {n : OpWidth} {s t : State} {d : Delivery} {k : Nat}
    (h : withBuffer buf n (.next (s.deliver d)) = .next t) : Near k s t := by
  unfold withBuffer at h
  split at h
  · cases h
  · split at h
    · cases h
    · exact deliver_near h

/-- ALL a meaning changes: where it answers a next state, it has advanced the cursor by at most 4 bytes and delivered something. -/
theorem exec_near {i : Instr} {s t : State} (h : exec i s = .next t) : Near 4 s t := by
  cases i with
  | rmReg | rmBase | sibBase | sibBaseIdx => exact deliver_near h
  | rmAbs32 | sibAbs32 | sibIdxAbs32 =>
    simp only [exec, execRmAbs32, execSibAbs32, execSibIdxAbs32] at h
    exact readAbs32_near h fun _ _ => returnOperands_near
  | rmBaseD8 | rmBaseD32 | sibBaseD8 | sibBaseIdxD8 | sibBaseD32 | sibBaseIdxD32 =>
    simp only [exec, execRmBaseD8, execRmBaseD32, execSibBaseD8, execSibBaseIdxD8, execSibBaseD32, execSibBaseIdxD32] at h
    exact readDisp_near h fun _ _ => returnOperands_near
  | sextInt => exact deliver_near h
  | sextBuf | zextBuf => exact withBuffer_near h
  | zextInt | parity | msb | lsb =>
    simp only [exec, execZextInt, execParity, execMsb, execLsb] at h
    split at h <;> first | exact deliver_near h | cases h

/-- ALL `resolve` changes where it answers a next state. -/
theorem resolve_near {s t : State} (h : resolve exec s = .next t) : Near 6 s t := by
  by_cases ha : s.addressSize < 4
  · rw [resolve_unsupported ha] at h; exact deliver_near h
  · rw [resolve_reads (Nat.not_lt.1 ha)] at h
    refine fetchRead_near (m := 5) h (by omega) fun v h' => ?_
    cases hm : decodeModRM (BitVec.ofNat 8 v) with
    | some i =>
      rw [selectForm_some _ hm] at h'
      obtain ⟨k, d, hk, rfl⟩ := exec_near h'
      exact ⟨k, d, by omega, rfl⟩
    | none =>
      rw [selectForm_none _ hm] at h'
      exact fetchRead_near h' (by omega) fun _ => exec_near

/-- ALL a step changes: the call is taken off the input, the cursor advances by at most 6 bytes, something is delivered; or the block is idle. -/
theorem step_next {s t : State} (h : step s = .next t) : (s.request = none ∧ t = s) ∨ Near 6 s.accept t := by
  cases hq : s.request with
  | none => rw [step_idle hq] at h; cases h; exact .inl ⟨rfl, rfl⟩
  | some q =>
    right
    cases q with
    | resolve => exact resolve_near (step_resolve hq ▸ h)
    | prim c =>
      rw [step_prim hq] at h
      unfold evaluate at h
      split at h
      · obtain ⟨k, d, hk, rfl⟩ := exec_near h
        exact ⟨k, d, by omega, rfl⟩
      · cases h

end Sys2Proof.Machine
end

