-- ==== Sys2Proof/Tests/Slice0.lean ====
section
/-! SUPPORT. The model's own tests. Expected results are the spec's: the source's scenarios S1 to S3 and the vectors V and E of
spec/95_test_vectors.md, the tables of its sections 2.4 to 2.6, and the words of spec/30_encoding.md R56 written out by hand. The witnesses
at the end show, for each statement with hypotheses, a state and operands that meet them. -/

namespace Sys2Proof.Machine

/-- The vector register file of spec/95_test_vectors.md, `resolve` presented, the given bytes at the cursor. -/
def vectorAt (cursor : Nat) (bytes : List Byte) : State :=
  { State.reset with
    cursor := cursor
    regs := #v[0x00001000, 0x00000003, 0xFFFFFFFF, 0x80000000, 0x0000FFF0, 0x00002000, 0x7FFFFFFF, 0x00000010]
    stream := Memory.writeBytes [] cursor bytes
    request := some .resolve }

/-- The same at position 0x1000. -/
def vector (bytes : List Byte) : State := vectorAt 0x1000 bytes

/-- A presented primitive call. -/
def primState (c : PrimCall) : State := { State.reset with request := some (.prim c) }

/-- The cursor and the delivery of a next state. -/
def seen : Answer → Option (Nat × Option Delivery)
  | .next t => some (t.cursor, t.delivered)
  | .fault _ => none
  | .refused _ => none

/-- The reason of a refusal. -/
def refusal : Answer → Option Refusal
  | .next _ => none
  | .fault _ => none
  | .refused r => some r

/-- A pair of operands (MEMORY(a, 4), REGISTER(r, 4)) with the cursor at 0x1000 + n. -/
def memReg (n : Nat) (a : Word) (r : RegIx) : Option (Nat × Option Delivery) :=
  some (0x1000 + n, some (.operands (.memory a .w4) (.register r .w4)))

/-! ### WellFormed refuses each ill-formed term -/

theorem test_wf_rmBase_escape : (Instr.rmBase 0 4).wellFormed = false := by decide
theorem test_wf_rmBase_absolute : (Instr.rmBase 0 5).wellFormed = false := by decide
theorem test_wf_rmBaseD8_escape : (Instr.rmBaseD8 0 4).wellFormed = false := by decide
theorem test_wf_rmBaseD32_escape : (Instr.rmBaseD32 0 4).wellFormed = false := by decide
theorem test_wf_sibIdxAbs32_noIndex : (Instr.sibIdxAbs32 0 0 4).wellFormed = false := by decide
theorem test_wf_sibBase_noBase : (Instr.sibBase 0 0 5).wellFormed = false := by decide
theorem test_wf_sibBaseIdx_noIndex : (Instr.sibBaseIdx 0 0 4 0).wellFormed = false := by decide
theorem test_wf_sibBaseIdx_noBase : (Instr.sibBaseIdx 0 0 0 5).wellFormed = false := by decide
theorem test_wf_sibBaseIdxD8_noIndex : (Instr.sibBaseIdxD8 0 0 4 5).wellFormed = false := by decide
theorem test_wf_sibBaseIdxD32_noIndex : (Instr.sibBaseIdxD32 0 0 4 5).wellFormed = false := by decide
theorem test_wf_sextInt_tooWide : (Instr.sextInt 0x100 .w1).wellFormed = false := by decide
theorem test_wf_sextBuf_empty : (Instr.sextBuf [] .w4).wellFormed = false := by decide
theorem test_wf_sextBuf_tooLong : (Instr.sextBuf [1, 2, 3, 4] .w2).wellFormed = false := by decide
theorem test_wf_zextInt_below : (Instr.zextInt (-129) .w1).wellFormed = false := by decide
theorem test_wf_zextBuf_empty : (Instr.zextBuf [] .w1).wellFormed = false := by decide
theorem test_wf_zextBuf_tooLong : (Instr.zextBuf [1, 2] .w1).wellFormed = false := by decide
theorem test_wf_parity_above : (Instr.parity 256).wellFormed = false := by decide
theorem test_wf_parity_negative : (Instr.parity (-1)).wellFormed = false := by decide
theorem test_wf_msb_negative : (Instr.msb (-1) .w4).wellFormed = false := by decide
theorem test_wf_lsb_negative : (Instr.lsb (-1) .w4).wellFormed = false := by decide

/-! ### Decoding words written out bit by bit from R56 (scale_index_base, MOD_REG_RM) and R60 -/

theorem test_decode_rmReg : decode (.stream [0b11_011_001]) = .ok (.rmReg 3 1, []) := by decide
theorem test_decode_rmBase : decode (.stream [0b00_111_110]) = .ok (.rmBase 7 6, []) := by decide
theorem test_decode_rmAbs32 : decode (.stream [0b00_010_101, 9]) = .ok (.rmAbs32 2, [9]) := by decide
theorem test_decode_rmBaseD8 : decode (.stream [0b01_001_101]) = .ok (.rmBaseD8 1 5, []) := by decide
theorem test_decode_rmBaseD32 : decode (.stream [0b10_010_110]) = .ok (.rmBaseD32 2 6, []) := by decide
theorem test_decode_sibBase : decode (.stream [0b00_001_100, 0b11_100_011]) = .ok (.sibBase 1 3 3, []) := by decide
theorem test_decode_sibBaseIdx : decode (.stream [0b00_110_100, 0b01_101_010]) = .ok (.sibBaseIdx 6 1 5 2, []) := by decide
theorem test_decode_sibAbs32 : decode (.stream [0b00_011_100, 0b01_100_101]) = .ok (.sibAbs32 3 1, []) := by decide
theorem test_decode_sibIdxAbs32 : decode (.stream [0b00_001_100, 0b10_000_101]) = .ok (.sibIdxAbs32 1 2 0, []) := by decide
theorem test_decode_sibBaseD8 : decode (.stream [0b01_001_100, 0b00_100_101]) = .ok (.sibBaseD8 1 0 5, []) := by decide
theorem test_decode_sibBaseIdxD8 : decode (.stream [0b01_101_100, 0b10_001_101]) = .ok (.sibBaseIdxD8 5 2 1 5, []) := by decide
theorem test_decode_sibBaseD32 : decode (.stream [0b10_111_100, 0b11_100_110]) = .ok (.sibBaseD32 7 3 6, []) := by decide
theorem test_decode_sibBaseIdxD32 : decode (.stream [0b10_100_100, 0b11_010_101]) = .ok (.sibBaseIdxD32 4 3 2 5, []) := by decide
theorem test_decode_sextInt : decode (.prim ⟨0b000, 0x80, [1], .w1⟩) = .ok (.sextInt 0x80 .w1, []) := by decide
theorem test_decode_sextBuf : decode (.prim ⟨0b001, 7, [0x80], .w4⟩) = .ok (.sextBuf [0x80] .w4, []) := by decide
theorem test_decode_zextInt : decode (.prim ⟨0b010, -1, [], .w1⟩) = .ok (.zextInt (-1) .w1, []) := by decide
theorem test_decode_zextBuf : decode (.prim ⟨0b011, 0, [0xFF, 0xFF], .w4⟩) = .ok (.zextBuf [0xFF, 0xFF] .w4, []) := by decide
theorem test_decode_parity : decode (.prim ⟨0b100, 0xA5, [], .w8⟩) = .ok (.parity 0xA5, []) := by decide
theorem test_decode_msb : decode (.prim ⟨0b101, 0x8000, [], .w2⟩) = .ok (.msb 0x8000 .w2, []) := by decide
theorem test_decode_lsb : decode (.prim ⟨0b110, 1, [], .w4⟩) = .ok (.lsb 1 .w4, []) := by decide
theorem test_decode_primOp7 : decode (.prim ⟨0b111, 0, [], .w1⟩) = .error .primOpReserved := by decide
theorem test_decode_missingBytes :
    decode (.stream []) = .error .modrmMissing ∧ decode (.stream [0x44]) = .error .sibMissing := by decide
/-- A table word: V11's bytes 04 24 are the 16-bit word 0x2404, and 3 is `prim_op` 3. -/
theorem test_tableWord :
    decodeTableWord 16 0x2404 = some (.sibBase 0 0 4) ∧ decodeTableWord 8 0xC0 = some (.rmReg 0 0) ∧
    decodeTableWord 8 3 = some (.zextBuf [0] .w1) := by decide
theorem test_tableWord_runs : seen (step (State.reset.withFetchWord 16 0x8D04)) =
    some (6, some (.operands (.memory 0 .w4) (.register 0 .w4))) := by decide

/-! ### One step on the spec's vectors -/

/-- V1: D9 with widths 1 and 4. -/
theorem test_rmReg_V1 : seen (step { vector [0xD9] with widthA := .w1, widthB := some .w4 }) =
    some (0x1001, some (.operands (.register 1 .w1) (.register 3 .w4))) := by decide
/-- V33: RM = 100 with MOD = 11 is register 4. -/
theorem test_rmReg_V33 : seen (step (vector [0xC4])) = some (0x1001, some (.operands (.register 4 .w4) (.register 0 .w4))) := by decide
/-- V3 and V2. -/
theorem test_rmBase_V3 : seen (step (vector [0x3E])) = memReg 1 0x7FFFFFFF 7 := by decide
theorem test_rmBase_V2 : seen (step (vector [0x03])) = memReg 1 0x80000000 0 := by decide
/-- S2, the source's byte order, and V9. -/
theorem test_rmAbs32_S2 : seen (step (vector [0x05, 0x78, 0x56, 0x34, 0x12])) = memReg 5 0x12345678 0 := by decide
theorem test_rmAbs32_V9 : seen (step (vector [0x05, 0xF0, 0xFF, 0xFF, 0xFF])) = memReg 5 0xFFFFFFF0 0 := by decide
/-- V5: d8 = 80 is -128; V4: RM = 101 is register 5. -/
theorem test_rmBaseD8_V5 : seen (step (vector [0x42, 0x80])) = memReg 2 0xFFFFFF7F 0 := by decide
theorem test_rmBaseD8_V4 : seen (step (vector [0x45, 0x10])) = memReg 2 0x00002010 0 := by decide
/-- V7 and V28. -/
theorem test_rmBaseD32_V7 : seen (step (vector [0x96, 0xFF, 0xFF, 0xFF, 0xFF])) = memReg 5 0x7FFFFFFE 2 := by decide
theorem test_rmBaseD32_V28 : seen (step (vector [0xBF, 0xF0, 0xFF, 0xFF, 0xFF])) = memReg 5 0x00000000 7 := by decide
/-- V12: scale ignored; E12: the stream ends exactly at the end of the encoding. -/
theorem test_sibBase_V12 : seen (step (vector [0x04, 0xE4])) = memReg 2 0x0000FFF0 0 := by decide
theorem test_sibBase_E12 : seen (step (vector [0x04, 0x24])) = memReg 2 0x0000FFF0 0 := by decide
/-- V18: index -1 scaled by 8; V19: 0x80000000 shifted out. -/
theorem test_sibBaseIdx_V18 : seen (step (vector [0x04, 0xD0])) = memReg 2 0x00000FF8 0 := by decide
theorem test_sibBaseIdx_V19 : seen (step (vector [0x04, 0x58])) = memReg 2 0x00001000 0 := by decide
/-- V13 and E6. -/
theorem test_sibAbs32_V13 : seen (step (vector [0x04, 0x25, 0x44, 0x33, 0x22, 0x11])) = memReg 6 0x11223344 0 := by decide
theorem test_sibAbs32_E6 : seen (step (vector [0x04, 0x25, 0x44, 0x33])) =
    some (0x1002, some (.error (.malformedStream 0x1002 4 0))) := by decide
/-- V14 and V31: register 5 as index, not as base. -/
theorem test_sibIdxAbs32_V14 : seen (step (vector [0x04, 0x8D, 0x00, 0x01, 0x00, 0x00])) = memReg 6 0x0000010C 0 := by decide
theorem test_sibIdxAbs32_V31 : seen (step (vector [0x04, 0x6D, 0xFC, 0xFF, 0xFF, 0xFF])) = memReg 6 0x00003FFC 0 := by decide
/-- S3 completed, and V23. -/
theorem test_sibBaseD8_S3 : seen (step (vector [0x44, 0x25, 0xF8])) = memReg 3 0x00001FF8 0 := by decide
theorem test_sibBaseD8_V23 : seen (step (vector [0x4C, 0x24, 0x04])) = memReg 3 0x0000FFF4 1 := by decide
/-- V35, a three-term wrap, and V15. -/
theorem test_sibBaseIdxD8_V35 : seen (step (vector [0x44, 0x1E, 0x02])) = memReg 3 0x00000001 0 := by decide
theorem test_sibBaseIdxD8_V15 : seen (step (vector [0x44, 0x8D, 0x08])) = memReg 3 0x00002014 0 := by decide
/-- V32 and E7. -/
theorem test_sibBaseD32_V32 : seen (step (vector [0x84, 0x64, 0xFF, 0xFF, 0xFF, 0x7F])) = memReg 6 0x8000FFEF 0 := by decide
theorem test_sibBaseD32_E7 : seen (step (vector [0x84, 0x24, 0x01, 0x02, 0x03])) =
    some (0x1002, some (.error (.malformedStream 0x1002 4 0))) := by decide
/-- V16, the longest form. -/
theorem test_sibBaseIdxD32_V16 : seen (step (vector [0x84, 0x8D, 0x00, 0x00, 0x00, 0x80])) = memReg 6 0x8000200C 0 := by decide
/-- E9: the mode check wins over an empty stream. -/
theorem test_unsupported_E9 : seen (step { vector [] with addressSize := 2 }) =
    some (0x1000, some (.error (.unsupportedMode 2))) := by decide
/-- E2: a 4-byte read fails as a whole; E4 and E5: the SIB and the d8 read fail. -/
theorem test_malformed_E2 : seen (step (vector [0x05, 0x78, 0x56])) =
    some (0x1001, some (.error (.malformedStream 0x1001 4 0))) := by decide
theorem test_malformed_E4 : seen (step (vector [0x44])) = some (0x1001, some (.error (.malformedStream 0x1001 1 0))) := by decide
theorem test_malformed_E5 : seen (step (vector [0x44, 0x25])) = some (0x1002, some (.error (.malformedStream 0x1002 1 0))) := by decide
/-- E13: the last position of the stream. -/
theorem test_top_E13 : seen (step (vectorAt (2 ^ 32 - 1) [0xC0])) =
    some (2 ^ 32, some (.operands (.register 0 .w4) (.register 0 .w4))) := by decide
/-- P3 step 4: a call after an error, at the cursor the error left, the payload propagated. -/
theorem test_afterError_P3 : seen (step { vectorAt 3 [] with report := 77, delivered := some (.error (.unsupportedMode 2)) }) =
    some (3, some (.error (.malformedStream 3 1 77))) := by decide

/-! ### The primitives on the tables of 95 sections 2.4 to 2.6 -/

theorem test_sextInt_8000 : seen (step (primState ⟨0, 0x8000, [], .w2⟩)) = some (0, some (.integer (-32768))) := by decide
theorem test_sextInt_negative : seen (step (primState ⟨0, -129, [], .w1⟩)) = some (0, some (.integer (-129))) := by decide
theorem test_sextInt_port : Delivery.port (.integer (-128)) = some 0xFFFFFFFFFFFFFF80 := by decide
theorem test_sextBuf_0080 : seen (step (primState ⟨1, 0, [0x00, 0x80], .w4⟩)) = some (0, some (.buffer [0x00, 0x80, 0xFF, 0xFF])) := by decide
theorem test_sextBuf_refused : refusal (step (primState ⟨1, 0, [1, 2, 3, 4], .w2⟩)) = some .bufferTooLong := by decide
theorem test_zextInt_minus128 : seen (step (primState ⟨2, -128, [], .w1⟩)) = some (0, some (.integer 128)) := by decide
theorem test_zextInt_refused : refusal (step (primState ⟨2, -129, [], .w1⟩)) = some .zeroExtendBelowRange := by decide
theorem test_zextBuf_FFFF : seen (step (primState ⟨3, 0, [0xFF, 0xFF], .w4⟩)) = some (0, some (.buffer [0xFF, 0xFF, 0x00, 0x00])) := by decide
theorem test_parity_A5 : seen (step (primState ⟨4, 0xA5, [], .w1⟩)) = some (0, some (.bit true)) := by decide
theorem test_parity_07 : seen (step (primState ⟨4, 0x07, [], .w1⟩)) = some (0, some (.bit false)) := by decide
theorem test_msb_1FF : seen (step (primState ⟨5, 0x1FF, [], .w1⟩)) = some (0, some (.bit true)) := by decide
theorem test_msb_80_w2 : seen (step (primState ⟨5, 0x80, [], .w2⟩)) = some (0, some (.bit false)) := by decide
theorem test_lsb_9C : seen (step (primState ⟨6, 0x9C, [], .w4⟩)) = some (0, some (.bit false)) := by decide
theorem test_lsb_FF : seen (step (primState ⟨6, 0xFF, [], .w1⟩)) = some (0, some (.bit true)) := by decide
theorem test_primOp7 : refusal (step (primState ⟨7, 0, [], .w1⟩)) = some .primOpReserved := by decide

/-! ### Witnesses: hypotheses of the statements that are met together -/

/-- A code of each kind is well formed. -/
theorem witness_DecodeOfEncodeIsTheInstruction :
    ((Instr.sibBaseIdxD32 4 3 2 5).wellFormed = true ∧ (Instr.sibBaseIdxD32 4 3 2 5).isForm = true) ∧
    ((Instr.sextBuf [0x80] .w4).wellFormed = true ∧ (Instr.sextBuf [0x80] .w4).isForm = false) := by decide
theorem witness_EncodeOfDecodeGivesTheBytes : decode (.stream [0x04, 0x88, 1]) = .ok (.sibBaseIdx 0 2 1 0, [1]) := by decide
theorem witness_StepRunsTheDecodedForm :
    ((vector [0x45, 0x10]).resolves ∧ (vector [0x45, 0x10]).supply 1 = some [0x45] ∧
      decode (.stream [0x45]) = .ok (.rmBaseD8 0 5, [])) ∧
    ((vector [0x44, 0x25]).resolves ∧ (vector [0x44, 0x25]).supply 1 = some [0x44] ∧
      decode (.stream [0x44]) = .error .sibMissing ∧ (vector [0x44, 0x25]).supplyAt 1 1 = some [0x25] ∧
      decode (.stream [0x44, 0x25]) = .ok (.sibBaseD8 0 0 5, [])) := by decide
theorem witness_StepRunsTheDecodedPrimitive :
    (primState ⟨6, 1, [], .w1⟩).request = some (.prim ⟨6, 1, [], .w1⟩) ∧ decode (.prim ⟨6, 1, [], .w1⟩) = .ok (.lsb 1 .w1, []) := by decide
theorem witness_IdleBlockDoesNothing : State.reset.request = none := by decide
/-- At the boundary: the two bytes end exactly at 2^32. -/
theorem witness_PresentedCodeRunsNext :
    decode (.stream [0x04, 0x24]) = .ok (.sibBase 0 0 4, []) ∧
    (vectorAt (2 ^ 32 - 2) []).cursor + (Code.stream [0x04, 0x24]).bytes.length ≤ Config.streamTop := by decide
/-- At the boundary: 3 is the largest refused size. -/
theorem witness_UnsupportedModeBeforeAnything :
    ({ vector [0xC0] with addressSize := 3 } : State).request = some .resolve ∧
    ({ vector [0xC0] with addressSize := 3 } : State).addressSize < 4 := by decide
/-- Every branch of the ModRM byte is taken by some state. -/
theorem witness_ModrmIsFetchedAndSplitFirst :
    ((vector []).resolves ∧ (vector []).supply 1 = none) ∧
    ((vector [0xC4]).supply 1 = some [0xC4] ∧ fieldTop 0xC4 = 3) ∧
    ((vector [0x44]).supply 1 = some [0x44] ∧ fieldTop 0x44 ≠ 3 ∧ fieldLow 0x44 = 4 ∧ (vector [0x44]).supplyAt 1 1 = none) ∧
    ((vector [0x44, 0x25]).supplyAt 1 1 = some [0x25]) ∧
    ((vector [0x03]).supply 1 = some [0x03] ∧ fieldTop 0x03 = 0 ∧ fieldLow 0x03 ≠ 4 ∧ fieldLow 0x03 ≠ 5) ∧
    ((vector [0x05]).supply 1 = some [0x05] ∧ fieldTop 0x05 = 0 ∧ fieldLow 0x05 = 5) ∧
    ((vector [0x45]).supply 1 = some [0x45] ∧ fieldTop 0x45 = 1 ∧ fieldLow 0x45 ≠ 4) ∧
    ((vector [0x85]).supply 1 = some [0x85] ∧ fieldTop 0x85 = 2 ∧ fieldLow 0x85 ≠ 4) := by decide
/-- At the boundary: the last four positions of the stream. -/
theorem witness_StreamValuesAreLittleEndian :
    let s := vectorAt (2 ^ 32 - 4) [1, 2, 3, 4]
    s.cursor + 4 ≤ Config.streamTop ∧ (s.cursor, 4) ∉ s.denied ∧ s.stream.read s.cursor = some 1 ∧
    s.stream.read (s.cursor + 1) = some 2 ∧ s.stream.read (s.cursor + 2) = some 3 ∧ s.stream.read (s.cursor + 3) = some 4 := by decide
/-- A denied read, a missing byte, a read beyond the top, and supplied reads of both sizes. -/
theorem witness_FetchReadIsAllOrNothing :
    ({ vector [1] with denied := [(0x1000, 1)] } : State).supply 1 = none ∧
    (vector [1, 2, 3]).stream.read ((vector [1, 2, 3]).cursor + 3) = none ∧
    2 ^ 32 < (vectorAt (2 ^ 32 - 3) [1, 2, 3]).cursor + 4 ∧
    (vector [1, 2, 3, 4]).supply 1 = some [1] ∧ (vector [1, 2, 3, 4]).supply 4 = some [1, 2, 3, 4] := by decide
theorem witness_CursorNeverWraps :
    2 ^ 32 < (vectorAt (2 ^ 32 - 3) []).cursor + 4 ∧
    ((vectorAt (2 ^ 32 - 1) [0xC0]).cursor + 1 = 2 ^ 32 ∧ (vectorAt (2 ^ 32 - 1) [0xC0]).supply 1 = some [0xC0]) ∧
    (vectorAt (2 ^ 32) []).cursor = 2 ^ 32 := by decide

/-- What every form statement assumes of its state: `resolve` presented, the mode accepted, the ModRM byte and the further reads supplied. -/
def formHypotheses (s : State) (modrm : Byte) (k n : Nat) (trailer : List Byte) : Bool :=
  decide s.resolves && decide (s.supply 1 = some [modrm]) && decide (s.supplyAt k n = some trailer)

theorem witness_RmRegNamesBothRegisters : formHypotheses (vector [0xD9]) (packByte 3 3 1) 0 1 [0xD9] = true := by decide
theorem witness_RmBaseAddressesThroughTheRegister :
    formHypotheses (vector [0x3E]) (packByte 0 7 6) 0 1 [0x3E] = true ∧ (6 : RegIx) ≠ 4 ∧ (6 : RegIx) ≠ 5 := by decide
theorem witness_RmAbs32TakesTheAddressFromTheStream :
    formHypotheses (vector [0x05, 1, 2, 3, 4]) (packByte 0 0 5) 1 4 [1, 2, 3, 4] = true ∧ (vector [0x05, 1]).supplyAt 1 4 = none := by decide
theorem witness_RmBaseD8AddsTheSignExtendedByte :
    formHypotheses (vector [0x45, 0x80]) (packByte 1 0 5) 1 1 [0x80] = true ∧ (vector [0x45]).supplyAt 1 1 = none ∧ (5 : RegIx) ≠ 4 := by decide
theorem witness_RmBaseD32AddsTheDisplacement :
    formHypotheses (vector [0x85, 1, 2, 3, 4]) (packByte 2 0 5) 1 4 [1, 2, 3, 4] = true ∧ (vector [0x85, 1]).supplyAt 1 4 = none ∧
    (5 : RegIx) ≠ 4 := by decide
theorem witness_SibBaseAddressesThroughTheBase :
    formHypotheses (vector [0x04, 0xE4]) (packByte 0 0 4) 1 1 [packByte 3 4 4] = true ∧ (vector [0x04]).supplyAt 1 1 = none ∧
    (4 : RegIx) ≠ 5 := by decide
theorem witness_SibBaseIdxAddsTheScaledIndex :
    formHypotheses (vector [0x04, 0xD0]) (packByte 0 0 4) 1 1 [packByte 3 2 0] = true ∧ (2 : RegIx) ≠ 4 ∧ (0 : RegIx) ≠ 5 := by decide
theorem witness_SibAbs32IgnoresEveryRegister :
    formHypotheses (vector [0x04, 0x65, 1, 2, 3, 4]) (packByte 0 0 4) 2 4 [1, 2, 3, 4] = true ∧
    (vector [0x04, 0x65]).supplyAt 1 1 = some [packByte 1 4 5] ∧ (vector [0x04, 0x65]).supplyAt 2 4 = none := by decide
theorem witness_SibIdxAbs32AddsTheScaledIndex :
    formHypotheses (vector [0x04, 0x6D, 1, 2, 3, 4]) (packByte 0 0 4) 2 4 [1, 2, 3, 4] = true ∧
    (vector [0x04, 0x6D]).supplyAt 1 1 = some [packByte 1 5 5] ∧ (vector [0x04, 0x6D]).supplyAt 2 4 = none ∧ (5 : RegIx) ≠ 4 := by decide
theorem witness_SibBaseD8AddsTheSignExtendedByte :
    formHypotheses (vector [0x44, 0x25, 0xF8]) (packByte 1 0 4) 2 1 [0xF8] = true ∧
    (vector [0x44, 0x25]).supplyAt 1 1 = some [packByte 0 4 5] ∧ (vector [0x44, 0x25]).supplyAt 2 1 = none := by decide
theorem witness_SibBaseIdxD8SumsThreeTerms :
    formHypotheses (vector [0x44, 0x1E, 2]) (packByte 1 0 4) 2 1 [2] = true ∧
    (vector [0x44, 0x1E]).supplyAt 1 1 = some [packByte 0 3 6] ∧ (vector [0x44, 0x1E]).supplyAt 2 1 = none ∧ (3 : RegIx) ≠ 4 := by decide
theorem witness_SibBaseD32AddsTheDisplacement :
    formHypotheses (vector [0x84, 0x64, 1, 2, 3, 4]) (packByte 2 0 4) 2 4 [1, 2, 3, 4] = true ∧
    (vector [0x84, 0x64]).supplyAt 1 1 = some [packByte 1 4 4] ∧ (vector [0x84, 0x64]).supplyAt 2 4 = none := by decide
theorem witness_SibBaseIdxD32SumsThreeTerms :
    formHypotheses (vector [0x84, 0x8D, 1, 2, 3, 4]) (packByte 2 0 4) 2 4 [1, 2, 3, 4] = true ∧
    (vector [0x84, 0x8D]).supplyAt 1 1 = some [packByte 2 1 5] ∧ (vector [0x84, 0x8D]).supplyAt 2 4 = none ∧ (1 : RegIx) ≠ 4 := by decide
/-- The errors all form statements share. -/
theorem witness_SharedErrors :
    (vector []).resolves ∧ (vector []).supply 1 = none ∧ ({ vector [] with addressSize := 0 } : State).addressSize < 4 := by decide
theorem witness_ByteDisplacementFormsComplete : (vector [0x80]).supply 1 = some [0x80] := by decide
theorem witness_WordTrailerFormsComplete : (vector [1, 2, 3, 4]).supply 4 = some [1, 2, 3, 4] := by decide
theorem witness_AddressTermsMayBeReadSignedOrUnsigned :
    (vector [0x80]).supply 1 = some [0x80] ∧ (vector [0, 0, 0, 0x80]).supply 4 = some [0, 0, 0, 0x80] := by decide
theorem witness_ResolveIsTheAlgorithmOfR89 : (vector [0x84]).request = some .resolve := by decide
theorem witness_EncodedFormResolvesFromTheStream :
    let s := vector [0x84, 0x8D, 1, 2, 3, 4]
    let i : Instr := .sibBaseIdxD32 0 2 1 5
    i.wellFormed = true ∧ i.isForm = true ∧ s.resolves ∧ ([1, 2, 3, 4] : List Byte).length = i.trailer.bytes ∧
    s.cursor + i.length ≤ Config.streamTop ∧ s.denied = [] ∧
    ∀ k, k < i.length → s.stream.read (s.cursor + k) = ((encode i).bytes ++ ([1, 2, 3, 4] : List Byte))[k]? := by decide
/-- A completed resolve: the hypotheses of the statements about completed calls. -/
theorem witness_CompletedResolve :
    ∃ t a b, (vector [0x44, 0x25, 0xF8]).request = some .resolve ∧ step (vector [0x44, 0x25, 0xF8]) = .next t ∧
      t.delivered = some (.operands a b) := ⟨_, _, _, rfl, rfl, rfl⟩
/-- A resolve that ends in an error: the hypotheses of the statements about errors. -/
theorem witness_FailedResolve :
    ∃ t e, (vector [0x44]).request = some .resolve ∧ step (vector [0x44]) = .next t ∧ t.delivered = some (.error e) := ⟨_, _, rfl, rfl, rfl⟩
/-- A primitive that completes, one that is refused, and a next state of a call that is no `resolve`. -/
theorem witness_PrimitivesArePureFunctions :
    (∃ t, step (primState ⟨4, 3, [], .w1⟩) = .next t) ∧ (∃ r, step (primState ⟨7, 3, [], .w1⟩) = .refused r) ∧
    (primState ⟨4, 3, [], .w1⟩).request ≠ some .resolve := ⟨⟨_, rfl⟩, ⟨_, rfl⟩, by decide⟩
theorem witness_OutcomeDoesNotDependOnHistory : (vector [0xC0]).request ≠ none := by decide
/-- Two register files that agree on the registers read and differ elsewhere. -/
theorem witness_OnlyTheFormsRegistersAreRead :
    (∃ t, exec (.rmBase 3 6) (vector []) = .next t) ∧
    ∀ r ∈ Reference.regsRead (.rmBase 3 6),
      ({ vector [] with regs := (vector []).regs.set 3 9 } : State).reg r = (vector []).reg r := ⟨⟨_, rfl⟩, by decide⟩
theorem witness_EveryStepKeepsTheInvariant :
    (vector [0x44, 0x25, 0xF8]).inv = true ∧ ∃ t, step (vector [0x44, 0x25, 0xF8]) = .next t := ⟨by decide, ⟨_, rfl⟩⟩
/-- Each clause at a boundary of its range. -/
theorem witness_SextIntSubtractsWhenTheSignBitIsSet :
    ((-1 : Int) < 0) ∧ ((0xFF : Int) = (0xFF : Nat) ∧ 0xFF < 2 ^ OpWidth.w1.bits) ∧ OpWidth.w8.bits ≤ 64 := by decide
theorem witness_SextBufFillsWithTheSign : ([1, 2, 3] : List Byte).length + 1 ≤ OpWidth.w4.bytes ∧ OpWidth.w1.bytes < ([1, 2] : List Byte).length := by decide
/-- A length that is no operand width, and the target's own. -/
theorem witness_SextBufKeepsTheSignedValue :
    (1 ≤ ([1, 2, 0x80] : List Byte).length ∧ ([1, 2, 0x80] : List Byte).length ≤ OpWidth.w4.bytes) ∧
    1 ≤ ([0xFF, 0x80] : List Byte).length ∧ ([0xFF, 0x80] : List Byte).length ≤ OpWidth.w2.bytes := by decide
theorem witness_ZextIntIsTheIdentityOnPatterns :
    (0 : Int) ≤ 0 ∧ (-(2 ^ (8 * OpWidth.w1.bytes - 1) : Int) ≤ -128 ∧ (-128 : Int) < 0) ∧
    (-129 : Int) < -(2 ^ (8 * OpWidth.w1.bytes - 1) : Int) ∧ (8 * OpWidth.w1.bytes ≤ 32 ∧ 255 < 2 ^ (8 * OpWidth.w1.bytes)) := by decide
theorem witness_ZextBufPadsWithZeros :
    (1 ≤ ([0x80] : List Byte).length ∧ ([0x80] : List Byte).length ≤ OpWidth.w1.bytes) ∧
    OpWidth.w1.bytes < ([1, 2] : List Byte).length := by decide
/-- Just outside the contract, and at its two ends. -/
theorem witness_BuffersOutsideTheContractAreRefused :
    OpWidth.w2.bytes < ([1, 2, 3] : List Byte).length ∧
    (1 ≤ ([1] : List Byte).length ∧ ([1] : List Byte).length ≤ OpWidth.w2.bytes) ∧
    1 ≤ ([1, 2] : List Byte).length ∧ ([1, 2] : List Byte).length ≤ OpWidth.w2.bytes := by decide
theorem witness_SignExtendUndoesZeroExtend :
    (-(2 ^ (8 * OpWidth.w1.bytes - 1) : Int) ≤ -128 ∧ (127 : Int) ≤ 2 ^ (8 * OpWidth.w1.bytes - 1) - 1) ∧
    ([0x80] : List Byte).length = OpWidth.w1.bytes := by decide
theorem witness_BytesOutsideTheStatedDomainAreRefused : (-1 : Int) < 0 ∧ (255 : Int) < 256 := by decide

end Sys2Proof.Machine
end

section
/-! PROOFS. The statements about the state: what every step keeps, changes and depends on (spec/10_state.md). First the facts they share: what
a form's meaning answers once its trailer is supplied or not, what a primitive answers, which stream bytes select a form, and from these all
that a `resolve` step can answer. -/

namespace Sys2Proof.Machine

/-! ### The meaning of a form, by its trailer -/

/-- The value of an `n`-byte trailer at the cursor (0 where there is none), `none` where it cannot be supplied. -/
def State.trailerValue (s : State) (n : Nat) : Option Nat :=
  if n = 0 then some 0 else (s.supply n).map littleEndian

theorem State.trailerValue_eq_some {s : State} {n v : Nat} (hn : n ≠ 0) :
    s.trailerValue n = some v ↔ ∃ bs, s.supply n = some bs ∧ littleEndian bs = v := by
  simp [State.trailerValue, hn]

/-- Only a trailer that exists and is not supplied has no value. -/
theorem State.trailerValue_eq_none {s : State} {n : Nat} : s.trailerValue n = none ↔ n ≠ 0 ∧ s.supply n = none := by
  by_cases hn : n = 0 <;> simp [State.trailerValue, hn]

/-- Shifting by the scale field is multiplying by its power of two (R88). -/
theorem State.scaled_eq_mul (s : State) (index : RegIx) (scale : ScaleBits) :
    s.scaled index scale = s.reg index * BitVec.ofNat 32 (2 ^ scale.toNat) := by
  rw [State.scaled, BitVec.shiftLeft_eq_mul_twoPow]
  congr 1
  revert scale; decide

/-- The model's sign extension of one byte is the reference's. -/
theorem sext32_one_eq_reference {v : Nat} (hv : v < 2 ^ 8) : sext32 1 v = BitVec.ofNat 32 (Reference.sext 1 v) := by
  have h : ∀ b : Byte, sext32 1 b.toNat = BitVec.ofNat 32 (Reference.sext 1 b.toNat) := by decide
  simpa only [BitVec.toNat_ofNat, Nat.mod_eq_of_lt hv] using h (BitVec.ofNat 8 v)

/-- The three trailer reads of a supplied trailer, in the reference's terms. -/
theorem readDisp_mod1_value {s : State} {v : Nat} (go : Word → State → Answer) (hv : s.trailerValue 1 = some v) :
    readDisp .mod1 s go = go (BitVec.ofNat 32 (Reference.sext 1 v)) (s.advance 1) := by
  obtain ⟨bs, hbs, rfl⟩ := (State.trailerValue_eq_some one_ne_zero).1 hv
  rw [← sext32_one_eq_reference (State.supply_value_lt hbs)]
  exact fetchRead_some _ hbs

theorem readDisp_mod2_value {s : State} {v : Nat} (go : Word → State → Answer) (hv : s.trailerValue 4 = some v) :
    readDisp .mod2 s go = go (BitVec.ofNat 32 v) (s.advance 4) := by
  obtain ⟨bs, hbs, rfl⟩ := (State.trailerValue_eq_some four_ne_zero).1 hv
  exact readDisp_mod2 go hbs

theorem readAbs32_value {s : State} {v : Nat} (go : Word → State → Answer) (hv : s.trailerValue 4 = some v) :
    readAbs32 s go = go (BitVec.ofNat 32 v) (s.advance 4) := by
  obtain ⟨bs, hbs, rfl⟩ := (State.trailerValue_eq_some four_ne_zero).1 hv
  exact readAbs32_some go hbs

/-- The model adds the terms in the order it reads them, the table of R56 in the order it writes them. -/
theorem sum_reversed (x y z : Word) : x + y + z = z + y + x := by ac_rfl

/-- A form whose trailer is supplied completes with the operand of its table row (R56) and its REG register (R73). -/
theorem exec_form_completes {i : Instr} {s : State} {v : Nat} (hi : i.isForm = true) (hv : s.trailerValue i.trailer.bytes = some v) :
    exec i s = .next (s.completed i.trailer.bytes (Reference.rmOperand s v i) (Reference.regField i)) := by
  cases i with
  | sextInt | sextBuf | zextInt | zextBuf | parity | msb | lsb => cases hi
  | rmReg | rmBase | sibBase => rfl
  | sibBaseIdx =>
    rw [Reference.rmOperand, ← State.scaled_eq_mul, BitVec.add_comm]; rfl
  | rmAbs32 | sibAbs32 =>
    simp only [exec, execRmAbs32, execSibAbs32]
    rw [readAbs32_value _ hv]; rfl
  | sibIdxAbs32 =>
    rw [exec, execSibIdxAbs32, readAbs32_value _ hv, Reference.rmOperand, ← State.scaled_eq_mul]; rfl
  | rmBaseD8 =>
    rw [exec, execRmBaseD8, readDisp_mod1_value _ hv]; rfl
  | rmBaseD32 =>
    rw [exec, execRmBaseD32, readDisp_mod2_value _ hv]; rfl
  | sibBaseD8 =>
    rw [exec, execSibBaseD8, readDisp_mod1_value _ hv, Reference.rmOperand, BitVec.add_comm (s.reg _)]; rfl
  | sibBaseD32 =>
    rw [exec, execSibBaseD32, readDisp_mod2_value _ hv, Reference.rmOperand, BitVec.add_comm (s.reg _)]; rfl
  | sibBaseIdxD8 =>
    rw [exec, execSibBaseIdxD8, readDisp_mod1_value _ hv, Reference.rmOperand, ← State.scaled_eq_mul, sum_reversed (s.reg _)]; rfl
  | sibBaseIdxD32 =>
    rw [exec, execSibBaseIdxD32, readDisp_mod2_value _ hv, Reference.rmOperand, ← State.scaled_eq_mul, sum_reversed (s.reg _)]; rfl

/-- A form whose trailer is not supplied ends in MalformedStreamError at that read (60 R121). -/
theorem exec_form_malformed {i : Instr} {s : State} (hi : i.isForm = true) (hv : s.trailerValue i.trailer.bytes = none) :
    exec i s = .next (s.deliver (.error (.malformedStream s.cursor i.trailer.bytes s.report))) := by
  obtain ⟨hn, hs⟩ := State.trailerValue_eq_none.1 hv
  cases i with
  | sextInt | sextBuf | zextInt | zextBuf | parity | msb | lsb => cases hi
  | rmReg | rmBase | sibBase | sibBaseIdx => cases hn rfl
  | rmAbs32 | sibAbs32 | sibIdxAbs32 =>
    simp only [exec, execRmAbs32, execSibAbs32, execSibIdxAbs32]
    exact fetchRead_none _ hs
  | rmBaseD8 | rmBaseD32 | sibBaseD8 | sibBaseIdxD8 | sibBaseD32 | sibBaseIdxD32 =>
    simp only [exec, execRmBaseD8, execRmBaseD32, execSibBaseD8, execSibBaseIdxD8, execSibBaseD32, execSibBaseIdxD32]
    exact fetchRead_none _ hs

/-! ### What a primitive answers -/

theorem decodePrim_isForm {c : PrimCall} {i : Instr} (h : decodePrim c = .ok i) : i.isForm = false := by
  simp only [decodePrim] at h
  split_ifs at h <;> cases h <;> rfl

/-- Filling a buffer of at most `n` bytes up to `n` gives a legal buffer. -/
theorem filled_buffer_legal (buf : List Byte) (n : OpWidth) (b : Byte) (h : buf.length ≤ n.bytes) :
    (Delivery.buffer (buf ++ List.replicate (n.bytes - buf.length) b)).legal = true := by
  have hl : (buf ++ List.replicate (n.bytes - buf.length) b).length = n.bytes := by simp; omega
  rw [Delivery.legal, hl]
  cases n <;> rfl

/-- A buffer form either goes on, with `1 <= L <= n`, or is refused. -/
theorem withBuffer_cases (buf : List Byte) (n : OpWidth) :
    (buf.length ≤ n.bytes ∧ ∀ go, withBuffer buf n go = go) ∨ ∃ r, ∀ go, withBuffer buf n go = .refused r := by
  by_cases h0 : buf.length = 0
  · exact .inr ⟨.bufferEmpty, fun _ => if_pos h0⟩
  · by_cases h : n.bytes < buf.length
    · exact .inr ⟨.bufferTooLong, fun _ => by rw [withBuffer, if_neg h0, if_pos h]⟩
    · exact .inl ⟨Nat.not_lt.1 h, fun go => withBuffer_fits go h0 (Nat.not_lt.1 h)⟩

/-- A primitive delivers one legal result that is no error, or is refused, whatever the state (R100). -/
theorem exec_prim_cases {i : Instr} (hi : i.isForm = false) :
    (∃ d : Delivery, d.legal = true ∧ (∀ e, d ≠ .error e) ∧ ∀ s, exec i s = .next (s.deliver d)) ∨
    ∃ r, ∀ s, exec i s = .refused r := by
  cases i with
  | rmReg | rmAbs32 | rmBase | rmBaseD8 | rmBaseD32 | sibAbs32 | sibIdxAbs32 | sibBase | sibBaseIdx | sibBaseD8 | sibBaseIdxD8
  | sibBaseD32 | sibBaseIdxD32 => cases hi
  | sextInt => exact .inl ⟨_, rfl, by simp, fun _ => rfl⟩
  | sextBuf buf n | zextBuf buf n =>
    rcases withBuffer_cases buf n with ⟨hl, h⟩ | ⟨r, h⟩
    · exact .inl ⟨_, filled_buffer_legal buf n _ hl, by simp, fun _ => h _⟩
    · exact .inr ⟨r, fun _ => h _⟩
  | zextInt value n =>
    by_cases h : value < -(2 ^ (n.bits - 1) : Int)
    · exact .inr ⟨_, fun _ => if_pos h⟩
    · exact .inl ⟨_, rfl, by simp, fun _ => if_neg h⟩
  | parity value =>
    by_cases h : 0 ≤ value ∧ value < 256
    · exact .inl ⟨_, rfl, by simp, fun _ => if_pos h⟩
    · exact .inr ⟨_, fun _ => if_neg h⟩
  | msb value | lsb value =>
    by_cases h : value < 0
    · exact .inr ⟨_, fun _ => if_pos h⟩
    · exact .inl ⟨_, rfl, by simp, fun _ => if_neg h⟩

/-- ALL a primitive call changes: the call is taken and a legal result that is no error delivered. -/
theorem step_prim_next {s t : State} {c : PrimCall} (hq : s.request = some (.prim c)) (h : step s = .next t) :
    ∃ d : Delivery, d.legal = true ∧ (∀ e, d ≠ .error e) ∧ t = s.accept.deliver d := by
  rw [step_prim hq, evaluate] at h
  split at h
  next i hi =>
    obtain ⟨d, hd, he, hx⟩ | ⟨r, hx⟩ := exec_prim_cases (decodePrim_isForm hi) <;> rw [hx] at h <;> cases h
    exact ⟨d, hd, he, rfl⟩
  next => cases h

/-! ### The bytes that select a form -/

theorem top_eq_zero : ∀ md : BitVec 2, md ≠ 3 → md ≠ 1 → md ≠ 2 → md = 0 := by decide

/-- A ModRM byte that is a form by itself gives a well-formed form whose encoding is that byte. -/
theorem decodeModRM_some {m : Byte} {i : Instr} (h : decodeModRM m = some i) :
    i.isForm = true ∧ i.wellFormed = true ∧ (encode i).bytes = [m] := by
  obtain ⟨md, reg, rm, rfl⟩ := exists_packByte m
  simp only [decodeModRM, fieldTop_packByte, fieldMid_packByte, fieldLow_packByte] at h
  have hmd := top_eq_zero md
  split_ifs at h <;> cases h <;> simp_all [Instr.isForm, Instr.wellFormed, encode, Code.bytes]

/-- A ModRM byte that announces a SIB byte has another MOD than 11, and RM 100 (R53). -/
theorem decodeModRM_none {m : Byte} (h : decodeModRM m = none) : fieldTop m ≠ 3 ∧ fieldLow m = 4 := by
  simp only [decodeModRM] at h
  split_ifs at h
  exact ⟨‹_›, ‹_›⟩

/-- A ModRM and a SIB byte give a well-formed form whose encoding is these two bytes. -/
theorem decodeSib_spec {m : Byte} (h : decodeModRM m = none) (b : Byte) :
    (decodeSib m b).isForm = true ∧ (decodeSib m b).wellFormed = true ∧ (encode (decodeSib m b)).bytes = [m, b] := by
  obtain ⟨h3, h4⟩ := decodeModRM_none h
  obtain ⟨md, reg, rm, rfl⟩ := exists_packByte m
  obtain ⟨scale, index, base, rfl⟩ := exists_packByte b
  rw [fieldTop_packByte] at h3
  rw [fieldLow_packByte] at h4
  have hmd := top_eq_zero md h3
  rw [decodeSib_packByte]
  split_ifs <;> simp_all [Instr.isForm, Instr.wellFormed, encode, Code.bytes]

/-- The reads of the ModRM byte and, where it announces one, the SIB byte are supplied and select `i` (R72, R79). -/
def State.Selects (s : State) (i : Instr) : Prop :=
  ∃ m, s.supply 1 = some [m] ∧
    (decodeModRM m = some i ∨ decodeModRM m = none ∧ ∃ b, s.supplyAt 1 1 = some [b] ∧ decodeSib m b = i)

/-- A selected form is well formed, and each byte of its encoding is supplied by a read of its own. -/
theorem State.Selects.spec {s : State} {i : Instr} (h : s.Selects i) :
    i.isForm = true ∧ i.wellFormed = true ∧
      ∀ j, j < (encode i).bytes.length → ∃ b, s.supplyAt j 1 = some [b] ∧ (encode i).bytes[j]? = some b := by
  obtain ⟨m, hm, hi | ⟨hn, b, hb, rfl⟩⟩ := h
  · obtain ⟨hf, hw, he⟩ := decodeModRM_some hi
    refine ⟨hf, hw, fun j hj => ?_⟩
    rw [he] at hj ⊢
    obtain rfl : j = 0 := by simpa using hj
    exact ⟨m, hm, rfl⟩
  · obtain ⟨hf, hw, he⟩ := decodeSib_spec hn b
    refine ⟨hf, hw, fun j hj => ?_⟩
    rw [he] at hj ⊢
    match j, hj with
    | 0, _ => exact ⟨m, hm, rfl⟩
    | 1, _ => exact ⟨b, hb, rfl⟩

/-- A supplied read of one byte goes on with that byte. -/
theorem fetchRead_byte {s : State} {b : Byte} (go : Byte → State → Answer) (h : s.supply 1 = some [b]) :
    fetchRead 1 s (fun v t => go (BitVec.ofNat 8 v) t) = go b (s.advance 1) := by
  rw [fetchRead_some _ h, littleEndian_one, BitVec.ofNat_toNat, BitVec.setWidth_eq]

/-- Once the ModRM byte is read, `resolve` selects the form (R72). -/
theorem step_of_modrm {s : State} {m : Byte} (hq : s.request = some .resolve) (ha : 4 ≤ s.addressSize) (hm : s.supply 1 = some [m]) :
    step s = selectForm exec m (s.accept.advance 1) :=
  ((step_resolve hq).trans (resolve_reads ha)).trans (fetchRead_byte (selectForm exec) hm)

/-- Once its bytes are read, `resolve` is the meaning of the selected form. -/
theorem step_of_selects {s : State} {i : Instr} (hq : s.request = some .resolve) (ha : 4 ≤ s.addressSize) (h : s.Selects i) :
    step s = exec i (s.accept.advance (encode i).bytes.length) := by
  obtain ⟨m, hm, hi | ⟨hn, b, hb, rfl⟩⟩ := h
  · obtain ⟨-, -, he⟩ := decodeModRM_some hi
    rw [step_of_modrm hq ha hm, selectForm_some _ hi, he]; rfl
  · obtain ⟨-, -, he⟩ := decodeSib_spec hn b
    rw [step_of_modrm hq ha hm, selectForm_none _ hn, he]
    exact fetchRead_byte (fun sib t => exec (decodeSib m sib) t) hb

/-- Where no form is selected, the ModRM or the SIB read is the one that fails. -/
theorem selects_or_malformed {s : State} (hq : s.request = some .resolve) (ha : 4 ≤ s.addressSize) :
    (∃ i, s.Selects i) ∨
      ∃ k, k ≤ 1 ∧ s.supplyAt k 1 = none ∧ (∀ j, j < k → s.supplyAt j 1 ≠ none) ∧ step s = .next (s.malformedAt k 1) := by
  cases hm : s.supply 1 with
  | none => exact .inr ⟨0, by omega, hm, nofun, ((step_resolve hq).trans (resolve_reads ha)).trans (fetchRead_none _ hm)⟩
  | some bs =>
    obtain ⟨m, rfl⟩ := State.supply_byte hm
    cases hd : decodeModRM m with
    | some i => exact .inl ⟨i, m, hm, .inl hd⟩
    | none =>
      cases hb : s.supplyAt 1 1 with
      | some bs =>
        obtain ⟨b, rfl⟩ := State.supply_byte hb
        exact .inl ⟨_, m, hm, .inr ⟨hd, b, hb, rfl⟩⟩
      | none =>
        refine .inr ⟨1, le_rfl, hb, fun j hj => ?_, ?_⟩
        · obtain rfl : j = 0 := by omega
          exact fun h => Option.some_ne_none _ (hm.symm.trans h)
        · rw [step_of_modrm hq ha hm, selectForm_none _ hd]
          exact fetchRead_none _ hb

/-! ### All that a `resolve` step can answer -/

/-- The stream supplies the bytes of the form `i`, and `v` as the value of its trailer. -/
def State.Reads (s : State) (i : Instr) (v : Nat) : Prop :=
  s.Selects i ∧ (s.advance (encode i).bytes.length).trailerValue i.trailer.bytes = some v

/-- The RM operand does not depend on the cursor or on the call being presented. -/
theorem rmOperand_accept_advance (s : State) (n v : Nat) (i : Instr) :
    Reference.rmOperand (s.accept.advance n) v i = Reference.rmOperand s v i := by
  cases i <;> rfl

/-- A form that is read in full is completed. -/
theorem step_of_reads {s : State} {i : Instr} {v : Nat} (hq : s.request = some .resolve) (ha : 4 ≤ s.addressSize) (h : s.Reads i v) :
    step s = .next (s.returned i.length (Reference.rmOperand s v i) (Reference.regField i)) := by
  obtain ⟨hsel, hv⟩ := h
  have hv' : (s.accept.advance (encode i).bytes.length).trailerValue i.trailer.bytes = some v := hv
  rw [step_of_selects hq ha hsel, exec_form_completes hsel.spec.1 hv', rmOperand_accept_advance]
  simp [State.completed, State.returned, Instr.length, State.advance, State.accept, State.effectiveWidthB, Nat.add_assoc]

/-- ALL that a `resolve` step can answer: the mode check fails, a form is read in full and completed, or the first read that is not supplied,
of `n` bytes after `k` bytes, ends the call (R71, R91). -/
theorem step_resolve_cases {s : State} (hq : s.request = some .resolve) :
    (s.addressSize < 4 ∧ step s = .next s.unsupported) ∨
    (4 ≤ s.addressSize ∧ ∃ i v, s.Reads i v ∧
      step s = .next (s.returned i.length (Reference.rmOperand s v i) (Reference.regField i))) ∨
    (4 ≤ s.addressSize ∧ ∃ k n, k ≤ 2 ∧ (n = 1 ∨ n = 4) ∧ (k = 0 → n = 1) ∧ s.supplyAt k n = none ∧
      (∀ j, j < k → s.supplyAt j 1 ≠ none) ∧ step s = .next (s.malformedAt k n)) := by
  rcases Nat.lt_or_ge s.addressSize 4 with ha | ha
  · exact .inl ⟨ha, (step_resolve hq).trans (resolve_unsupported ha)⟩
  right
  obtain ⟨i, hsel⟩ | ⟨k, hk, hn, hbefore, hstep⟩ := selects_or_malformed hq ha
  · obtain ⟨hf, -, hbytes⟩ := hsel.spec
    cases hv : (s.advance (encode i).bytes.length).trailerValue i.trailer.bytes with
    | some v => exact .inl ⟨ha, i, v, ⟨hsel, hv⟩, step_of_reads hq ha ⟨hsel, hv⟩⟩
    | none =>
      obtain ⟨h0, hs⟩ := State.trailerValue_eq_none.1 hv
      have hsize := Laws.EncodingSize.every i
      rw [Laws.EncodingSize.Statement, if_pos hf] at hsize
      obtain ⟨h1, h2, -, -⟩ := hsize
      refine .inr ⟨ha, _, i.trailer.bytes, h2, ?_, by omega, hs, fun j hj => ?_, ?_⟩
      · cases hT : i.trailer <;> simp_all [Trailer.bytes]
      · obtain ⟨b, hb, -⟩ := hbytes j hj
        simp [hb]
      · have hv' : (s.accept.advance (encode i).bytes.length).trailerValue i.trailer.bytes = none := hv
        rw [step_of_selects hq ha hsel, exec_form_malformed hf hv']; rfl
  · exact .inr ⟨ha, k, 1, by omega, .inl rfl, fun _ => rfl, hn, hbefore, hstep⟩

/-! ### What every step keeps and changes -/

theorem State.inv_iff {s : State} :
    s.inv = true ↔ s.stream.wf = true ∧ s.cursor ≤ Config.streamTop ∧ ∀ d, s.delivered = some d → d.legal = true := by
  cases hd : s.delivered <;> simp [State.inv, hd, and_assoc]

/-- What keeps the invariant: the same stream, a cursor in range, a legal delivery. -/
theorem State.inv_of_delivered {s t : State} {d : Delivery} (hs : s.inv = true) (hstream : t.stream = s.stream)
    (hc : t.cursor ≤ Config.streamTop) (hd : t.delivered = some d) (hl : d.legal = true) : t.inv = true :=
  State.inv_iff.2 ⟨hstream ▸ (State.inv_iff.1 hs).1, hc, fun _ he => Option.some.inj (hd.symm.trans he) ▸ hl⟩

/-- A supplied read ends inside the stream (R14). -/
theorem State.supplyAt_cursor_le {s : State} {k n : Nat} {bs : List Byte} (h : s.supplyAt k n = some bs) :
    s.cursor + k + n ≤ Config.streamTop :=
  (State.supply_eq_some.1 h).1

/-- Reading single bytes never takes the cursor beyond the stream. -/
theorem State.cursor_add_le {s : State} {k : Nat} (hc : s.cursor ≤ Config.streamTop) (h : ∀ j, j < k → s.supplyAt j 1 ≠ none) :
    s.cursor + k ≤ Config.streamTop := by
  cases k with
  | zero => exact hc
  | succ j =>
    obtain ⟨bs, hbs⟩ := Option.ne_none_iff_exists'.1 (h j (Nat.lt_succ_self j))
    exact State.supplyAt_cursor_le hbs

/-- A form read in full ends inside the stream. -/
theorem State.Reads.cursor_add_length_le {s : State} {i : Instr} {v : Nat} (h : s.Reads i v) (hc : s.cursor ≤ Config.streamTop) :
    s.cursor + i.length ≤ Config.streamTop := by
  obtain ⟨hsel, hv⟩ := h
  obtain ⟨-, -, hbytes⟩ := hsel.spec
  rw [Instr.length]
  by_cases h0 : i.trailer.bytes = 0
  · rw [h0]
    refine State.cursor_add_le hc fun j hj => ?_
    obtain ⟨b, hb, -⟩ := hbytes j hj
    simp [hb]
  · obtain ⟨bs, hbs, -⟩ := (State.trailerValue_eq_some h0).1 hv
    rw [← Nat.add_assoc]
    exact State.supplyAt_cursor_le hbs

/-- A form read in full is 1 to 6 bytes long (R54). -/
theorem State.Reads.length_bounds {s : State} {i : Instr} {v : Nat} (h : s.Reads i v) : 1 ≤ i.length ∧ i.length ≤ 6 := by
  have hsize := Laws.EncodingSize.every i
  rw [Laws.EncodingSize.Statement, if_pos h.1.spec.1] at hsize
  omega

/-- The invariant over a `resolve` call: each of its outcomes leaves the cursor in range and delivers something legal. -/
theorem step_resolve_keeps_inv {s t : State} (hq : s.request = some .resolve) (hs : s.inv = true) (h : step s = .next t) :
    t.inv = true := by
  obtain ⟨-, hc, -⟩ := State.inv_iff.1 hs
  obtain ⟨ha, hstep⟩ | ⟨-, i, v, hr, hstep⟩ | ⟨-, k, n, -, hn, -, -, hbefore, hstep⟩ := step_resolve_cases hq <;>
    rw [hstep] at h <;> cases h
  · exact State.inv_of_delivered hs rfl hc rfl (decide_eq_true ha)
  · exact State.inv_of_delivered hs rfl (hr.cursor_add_length_le hc) rfl rfl
  · have hk := State.cursor_add_le hc hbefore
    exact State.inv_of_delivered hs rfl hk rfl (by simp [Delivery.legal, hk, hn])

/-- Settles O47: an idle block keeps its state, a primitive delivers something legal and moves nothing, `resolve` by its outcomes. -/
theorem everyStepKeepsTheInvariant : Obligations.EveryStepKeepsTheInvariant := by
  intro s t hs h
  match hq : s.request with
  | none => rw [step_idle hq] at h; cases h; exact hs
  | some .resolve => exact step_resolve_keeps_inv hq hs h
  | some (.prim c) =>
    obtain ⟨d, hd, -, rfl⟩ := step_prim_next hq h
    obtain ⟨-, hc, -⟩ := State.inv_iff.1 hs
    exact State.inv_of_delivered hs rfl hc rfl hd

/-- A `resolve` step that delivers operands has read a form in full. -/
theorem step_resolve_operands {s t : State} {a b : OperandDescriptor} (hq : s.request = some .resolve) (h : step s = .next t)
    (hd : t.delivered = some (.operands a b)) :
    ∃ i v, s.Reads i v ∧ t = s.returned i.length (Reference.rmOperand s v i) (Reference.regField i) := by
  obtain ⟨-, hstep⟩ | ⟨-, i, v, hr, hstep⟩ | ⟨-, k, n, -, -, -, -, -, hstep⟩ := step_resolve_cases hq <;>
    rw [hstep] at h <;> cases h
  · cases hd
  · exact ⟨i, v, hr, rfl⟩
  · cases hd

/-- Settles O38: the form is the one the step has read in full. -/
theorem completedResolveConsumesItsEncoding : Obligations.CompletedResolveConsumesItsEncoding := by
  intro s t a b hq h hd
  obtain ⟨i, v, hr, rfl⟩ := step_resolve_operands hq h hd
  obtain ⟨hf, hw, hbytes⟩ := hr.1.spec
  obtain ⟨h1, h6⟩ := hr.length_bounds
  refine ⟨i, hw, hf, rfl, h1, h6, fun k hk => ?_⟩
  obtain ⟨b, hb, he⟩ := hbytes k hk
  obtain ⟨-, -, -, hread⟩ := State.supply_eq_some.1 hb
  rw [he]
  exact hread 0 Nat.one_pos

/-- An error leaves the cursor at most two bytes further: only the ModRM and the SIB read can have succeeded before it (R91). -/
theorem step_resolve_error_cursor {s t : State} {e : ResolveError} (hq : s.request = some .resolve) (h : step s = .next t)
    (hd : t.delivered = some (.error e)) : t.cursor ≤ s.cursor + 2 := by
  obtain ⟨-, hstep⟩ | ⟨-, i, v, -, hstep⟩ | ⟨-, k, n, hk, -, -, -, -, hstep⟩ := step_resolve_cases hq <;>
    rw [hstep] at h <;> cases h
  · exact Nat.le_add_right _ _
  · cases hd
  · exact Nat.add_le_add_left hk _

/-- Settles O39, from what any step changes and where an error leaves the cursor. -/
theorem stepMovesTheCursorForwardAtMostSix : Obligations.StepMovesTheCursorForwardAtMostSix := by
  intro s t h
  have hmoves : s.cursor ≤ t.cursor ∧ t.cursor ≤ s.cursor + 6 := by
    obtain ⟨-, rfl⟩ | ⟨k, d, hk, rfl⟩ := step_next h
    · omega
    · simp [hk]
  refine ⟨hmoves.1, hmoves.2, fun hq => ?_, fun e hq hd => step_resolve_error_cursor hq h hd⟩
  match hr : s.request with
  | none => rw [step_idle hr] at h; cases h; rfl
  | some .resolve => exact absurd hr hq
  | some (.prim c) => obtain ⟨d, -, -, rfl⟩ := step_prim_next hr h; rfl

/-- Settles O40: a next state is the old one, or the old one with the call taken, the cursor advanced and something delivered. -/
theorem stepChangesOnlyCursorAndDelivery : Obligations.StepChangesOnlyCursorAndDelivery := by
  intro s t h
  obtain ⟨hq, rfl⟩ | ⟨k, d, -, rfl⟩ := step_next h
  · exact ⟨rfl, fun _ => rfl, rfl, fun _ => rfl, rfl, rfl, rfl, rfl, rfl, hq⟩
  · exact ⟨rfl, fun _ => rfl, rfl, fun _ => rfl, rfl, rfl, rfl, rfl, rfl, rfl⟩

/-! ### What a step does not depend on -/

/-- A read does not depend on the earlier delivery where its continuation does not. -/
theorem fetchRead_delivered {go : Nat → State → Answer} (d : Option Delivery) (n : Nat) (s : State)
    (hgo : ∀ v t, go v { t with delivered := d } = go v t) : fetchRead n { s with delivered := d } go = fetchRead n s go := by
  obtain ⟨bs, hbs, he⟩ | ⟨hn, he⟩ := fetchRead_cases n s go
  · exact (fetchRead_some go (s := { s with delivered := d }) hbs).trans ((hgo _ _).trans he.symm)
  · exact (fetchRead_none go (s := { s with delivered := d }) hn).trans he.symm

/-- No meaning depends on the earlier delivery: a form reads and overwrites it, a primitive's answer is the same in every state. -/
theorem exec_delivered (i : Instr) (d : Option Delivery) (s : State) : exec i { s with delivered := d } = exec i s := by
  cases hi : i.isForm with
  | true =>
    cases hv : s.trailerValue i.trailer.bytes with
    | some v =>
      have hop : Reference.rmOperand { s with delivered := d } v i = Reference.rmOperand s v i := by cases i <;> rfl
      rw [exec_form_completes hi hv, exec_form_completes (s := { s with delivered := d }) hi hv, hop]; rfl
    | none => rw [exec_form_malformed hi hv, exec_form_malformed (s := { s with delivered := d }) hi hv]; rfl
  | false =>
    obtain ⟨e, -, -, he⟩ | ⟨r, hr⟩ := exec_prim_cases hi
    · rw [he, he]; rfl
    · rw [hr, hr]

/-- Selecting a form and running it does not depend on the earlier delivery. -/
theorem selectForm_delivered (m : Byte) (d : Option Delivery) (s : State) :
    selectForm exec m { s with delivered := d } = selectForm exec m s := by
  cases hm : decodeModRM m with
  | some i => rw [selectForm_some _ hm, selectForm_some _ hm, exec_delivered]
  | none =>
    rw [selectForm_none _ hm, selectForm_none _ hm]
    exact fetchRead_delivered d 1 s fun _ _ => exec_delivered ..

theorem resolve_delivered (d : Option Delivery) (s : State) : resolve exec { s with delivered := d } = resolve exec s := by
  rcases Nat.lt_or_ge s.addressSize 4 with ha | ha
  · exact (resolve_unsupported (s := { s with delivered := d }) ha).trans (resolve_unsupported ha).symm
  · rw [resolve_reads ha, resolve_reads (s := { s with delivered := d }) ha]
    exact fetchRead_delivered d 1 s fun _ _ => selectForm_delivered ..

theorem evaluate_delivered (c : PrimCall) (d : Option Delivery) (s : State) :
    evaluate exec c { s with delivered := d } = evaluate exec c s := by
  rw [evaluate, evaluate]
  split
  · exact exec_delivered ..
  · rfl

/-- Settles O42: each kind of call overwrites the earlier delivery without reading it. -/
theorem outcomeDoesNotDependOnHistory : Obligations.OutcomeDoesNotDependOnHistory := by
  intro s d hq
  obtain ⟨q, hr⟩ := Option.ne_none_iff_exists'.1 hq
  cases q with
  | resolve =>
    exact (step_resolve (s := { s with delivered := d }) hr).trans ((resolve_delivered d s.accept).trans (step_resolve hr).symm)
  | prim c =>
    exact (step_prim (s := { s with delivered := d }) hr).trans ((evaluate_delivered c d s.accept).trans (step_prim hr).symm)

/-- Other control inputs label the RM operand with the new `widthA` and leave its location (R16). -/
theorem rmOperand_widths (s : State) (wA : OpWidth) (wB : Option OpWidth) (size v : Nat) (i : Instr) :
    Reference.rmOperand { s with widthA := wA, widthB := wB, addressSize := size } v i =
      Reference.withWidth (Reference.rmOperand s v i) wA := by
  cases i <;> rfl

/-- Settles O44: the bytes read do not depend on the control inputs, so the same form is read in full and completed. -/
theorem widthsOnlyLabelTheDescriptors : Obligations.WidthsOnlyLabelTheDescriptors := by
  intro s t a b wA wB size hq h hd hsize
  obtain ⟨i, v, hr, rfl⟩ := step_resolve_operands hq h hd
  cases hd
  have hr' : ({ s with widthA := wA, widthB := wB, addressSize := size } : State).Reads i v := hr
  rw [step_of_reads (s := { s with widthA := wA, widthB := wB, addressSize := size }) hq hsize hr', rmOperand_widths]
  rfl

/-! ### The idle block, the end of the stream, reset -/

/-- Settles O10: without a request `operate` answers the state itself. -/
theorem idleBlockDoesNothing : Obligations.IdleBlockDoesNothing := fun _ => step_idle

/-- A read that would end beyond the stream is not supplied (R14). -/
theorem State.supply_beyond {s : State} {n : Nat} (h : Config.streamTop < s.cursor + n) : s.supply n = none := if_pos h

/-- Settles O16: beyond 2^32 nothing is supplied, and from 2^32 every read of a byte is beyond it. -/
theorem cursorNeverWraps : Obligations.CursorNeverWraps := by
  intro s n go
  refine ⟨fun h => fetchRead_none go (State.supply_beyond h), fun bs hc hbs => ⟨fetchRead_some go hbs, hc⟩, fun hc hn => ?_⟩
  have h : Config.streamTop < s.cursor + n := by rw [hc]; exact Nat.lt_add_of_pos_right hn
  exact fetchRead_none go (State.supply_beyond h)

/-- Settles O48 by evaluation of the reset state. -/
theorem resetHasTheInvariantAndIsIdle : Obligations.ResetHasTheInvariantAndIsIdle := ⟨rfl, rfl⟩

end Sys2Proof.Machine
end

section
/-! PROOFS. The statements about the stream and byte order (spec/20_memory.md): the value of a little-endian byte list, as a sum, over a
concatenation and as a signed integer, and from these what `FetchRead` and SEXT_BUF do with it. -/

namespace Sys2Proof.Machine

/-! ### The value of a byte list -/

/-- The value of a byte list is its digit sum in base 2^8 (20 R31). -/
theorem littleEndian_eq_sum (bs : List Byte) :
    littleEndian bs = ((List.range bs.length).map fun k => 2 ^ (8 * k) * (bs.getD k 0).toNat).sum := by
  induction bs with
  | nil => rfl
  | cons b bs ih =>
    have hdigit : ∀ k v : Nat, 256 * (2 ^ (8 * k) * v) = 2 ^ (8 * (k + 1)) * v := by
      intro k v
      ring
    rw [littleEndian, ih, ← List.sum_map_mul_left]
    simp [List.range_succ_eq_map, Function.comp_def, hdigit]

/-- Bytes appended at the end are the more significant ones (20 R32). -/
theorem littleEndian_append (xs ys : List Byte) :
    littleEndian (xs ++ ys) = littleEndian xs + 2 ^ (8 * xs.length) * littleEndian ys := by
  induction xs with
  | nil => simp [littleEndian]
  | cons x xs ih =>
    rw [List.cons_append, littleEndian, littleEndian, ih, List.length_cons]
    ring

theorem littleEndian_replicate_zero (k : Nat) : littleEndian (List.replicate k 0x00) = 0 := by
  induction k with
  | zero => rfl
  | succ k ih => rw [List.replicate_succ, littleEndian, ih]; rfl

/-- A run of `FF` bytes has every bit set. -/
theorem littleEndian_replicate_ones (k : Nat) : littleEndian (List.replicate k 0xFF) + 1 = 2 ^ (8 * k) := by
  induction k with
  | zero => rfl
  | succ k ih =>
    have hbyte : (0xFF : Byte).toNat = 255 := rfl
    rw [List.replicate_succ, littleEndian, hbyte, Nat.mul_add_one 8, Nat.pow_add, ← ih]
    omega

/-- A byte appended to a pattern is its least significant one. -/
theorem toNat_append_byte {w : Nat} (x : BitVec w) (b : Byte) : (x ++ b).toNat = b.toNat + 256 * x.toNat := by
  rw [BitVec.toNat_append, ← Nat.shiftLeft_add_eq_or_of_lt b.isLt, Nat.shiftLeft_eq]
  omega

/-- The four-byte pattern and the four-byte value are the same number (20 R31). -/
theorem toNat_wordOfBytes (b0 b1 b2 b3 : Byte) : (wordOfBytes b0 b1 b2 b3).toNat = littleEndian [b0, b1, b2, b3] := by
  simp only [wordOfBytes, toNat_append_byte, littleEndian, Nat.mul_zero, Nat.add_zero]

theorem ofNat_littleEndian_four (b0 b1 b2 b3 : Byte) :
    BitVec.ofNat 32 (littleEndian [b0, b1, b2, b3]) = wordOfBytes b0 b1 b2 b3 := by
  rw [← toNat_wordOfBytes, BitVec.ofNat_toNat, BitVec.setWidth_eq]

/-! ### `FetchRead` -/

/-- Four bytes that stand inside the stream, their read not denied, are supplied. -/
theorem State.supply_four {s : State} {b0 b1 b2 b3 : Byte} (htop : s.cursor + 4 ≤ Config.streamTop) (hden : (s.cursor, 4) ∉ s.denied)
    (h0 : s.stream.read s.cursor = some b0) (h1 : s.stream.read (s.cursor + 1) = some b1)
    (h2 : s.stream.read (s.cursor + 2) = some b2) (h3 : s.stream.read (s.cursor + 3) = some b3) :
    s.supply 4 = some [b0, b1, b2, b3] :=
  State.supply_eq_some.2 ⟨htop, hden, rfl, fun
    | 0, _ => h0
    | 1, _ => h1
    | 2, _ => h2
    | 3, _ => h3⟩

/-- One missing byte fails the whole read (20 R35, 92 D25). -/
theorem State.supply_missing {s : State} {n k : Nat} (hk : k < n) (h : s.stream.read (s.cursor + k) = none) : s.supply n = none := by
  refine Option.eq_none_iff_forall_ne_some.2 fun bs hbs => ?_
  obtain ⟨-, -, hlen, hread⟩ := State.supply_eq_some.1 hbs
  have hnone : bs[k]? = none := (hread k hk).symm.trans h
  rw [List.getElem?_eq_none_iff] at hnone
  omega

/-- Settles O14: the four bytes are supplied, and their value is both the sum and the pattern. -/
theorem streamValuesAreLittleEndian : Obligations.StreamValuesAreLittleEndian := by
  intro s go b0 b1 b2 b3 htop hden h0 h1 h2 h3
  have hbs := State.supply_four htop hden h0 h1 h2 h3
  rw [fetchRead_some _ hbs, fetchRead_some _ hbs, ofNat_littleEndian_four, littleEndian_four]
  exact ⟨rfl, rfl⟩

/-- Settles O15, from what a supplied read is and the two outcomes of `FetchRead`. -/
theorem fetchReadIsAllOrNothing : Obligations.FetchReadIsAllOrNothing := by
  intro s n go _
  refine ⟨fetchRead_none go, fun bs hbs => ?_, fun ⟨_, hk, h⟩ => State.supply_missing hk h, State.supply_beyond⟩
  obtain ⟨-, -, rfl, hread⟩ := State.supply_eq_some.1 hbs
  exact ⟨rfl, hread, by rw [fetchRead_some go hbs, littleEndian_eq_sum]⟩

/-! ### The signed value of a buffer -/

/-- The top bit of a buffer's value is bit 7 of its last byte (41 R102). -/
theorem signBit_le_littleEndian_iff {buf : List Byte} (h : 1 ≤ buf.length) :
    2 ^ (8 * buf.length - 1) ≤ littleEndian buf ↔ 0x80 ≤ (buf.getLastD 0).toNat := by
  obtain rfl | ⟨front, last, rfl⟩ := buf.eq_nil_or_concat'
  · simp at h
  have hfront := littleEndian_lt front
  have htop : 2 ^ (8 * (front ++ [last]).length - 1) = 2 ^ (8 * front.length) * 0x80 := by
    rw [List.length_append, List.length_singleton, show 8 * (front.length + 1) - 1 = 8 * front.length + 7 by omega, Nat.pow_add]
  rw [htop, littleEndian_append, littleEndian_one, List.getLastD_concat]
  refine ⟨fun hle => ?_, fun hle => (Nat.mul_le_mul_left _ hle).trans (Nat.le_add_left _ _)⟩
  have hlt : 2 ^ (8 * front.length) * 0x80 < 2 ^ (8 * front.length) * (last.toNat + 1) := by
    rw [Nat.mul_add_one _ last.toNat]
    omega
  exact Nat.le_of_lt_succ (Nat.lt_of_mul_lt_mul_left hlt)

theorem length_signExtendBuf {buf : List Byte} {n : OpWidth} (h : buf.length ≤ n.bytes) : (signExtendBuf buf n).length = n.bytes := by
  simp [signExtendBuf, h]

/-- SEXT_BUF inside its domain delivers the extended buffer (41 R102). -/
theorem exec_sextBuf_fits {buf : List Byte} {n : OpWidth} (s : State) (h1 : 1 ≤ buf.length) (h : buf.length ≤ n.bytes) :
    exec (.sextBuf buf n) s = .next (s.answered (.buffer (signExtendBuf buf n))) :=
  withBuffer_fits _ (Nat.one_le_iff_ne_zero.1 h1) h

/-- A buffer with the sign bit clear is filled with zeros and keeps its value. -/
theorem littleEndian_signExtendBuf_of_lt {buf : List Byte} (n : OpWidth) (h1 : 1 ≤ buf.length)
    (h : littleEndian buf < 2 ^ (8 * buf.length - 1)) : littleEndian (signExtendBuf buf n) = littleEndian buf := by
  have hfill : signFill buf = 0x00 := if_neg ((signBit_le_littleEndian_iff h1).not.1 (Nat.not_le.2 h))
  rw [signExtendBuf, hfill, littleEndian_append, littleEndian_replicate_zero, Nat.mul_zero, Nat.add_zero]

/-- A buffer with the sign bit set is filled with ones, which adds `2^(8n) - 2^(8L)` to its value. -/
theorem littleEndian_signExtendBuf_of_ge {buf : List Byte} {n : OpWidth} (h1 : 1 ≤ buf.length) (hn : buf.length ≤ n.bytes)
    (h : 2 ^ (8 * buf.length - 1) ≤ littleEndian buf) :
    littleEndian (signExtendBuf buf n) + 2 ^ (8 * buf.length) = littleEndian buf + 2 ^ (8 * n.bytes) := by
  have hfill : signFill buf = 0xFF := if_pos ((signBit_le_littleEndian_iff h1).1 h)
  have hpow : 2 ^ (8 * n.bytes) = 2 ^ (8 * buf.length) * 2 ^ (8 * (n.bytes - buf.length)) := by
    rw [← Nat.pow_add]
    congr 1
    omega
  rw [signExtendBuf, hfill, littleEndian_append, hpow, ← littleEndian_replicate_ones (n.bytes - buf.length)]
  ring

/-- Sign extension keeps the two's-complement value (41 R102, corner cases). -/
theorem signed_signExtendBuf {buf : List Byte} {n : OpWidth} (h1 : 1 ≤ buf.length) (hn : buf.length ≤ n.bytes) :
    Reference.signed n.bytes (littleEndian (signExtendBuf buf n)) = Reference.signed buf.length (littleEndian buf) := by
  have hhalf : 2 ^ (8 * buf.length - 1) ≤ 2 ^ (8 * n.bytes - 1) := Nat.pow_le_pow_right (by omega) (by omega)
  rcases Nat.lt_or_ge (littleEndian buf) (2 ^ (8 * buf.length - 1)) with h | h
  · rw [littleEndian_signExtendBuf_of_lt n h1 h, Reference.signed, Reference.signed, if_neg (by omega), if_neg (by omega)]
  · have hval := littleEndian_signExtendBuf_of_ge h1 hn h
    have hL : 2 ^ (8 * buf.length) = 2 ^ (8 * buf.length - 1) * 2 := (Nat.pow_pred_mul (by omega)).symm
    have hN : 2 ^ (8 * n.bytes) = 2 ^ (8 * n.bytes - 1) * 2 := (Nat.pow_pred_mul (by omega)).symm
    rw [Reference.signed, Reference.signed, if_pos (by omega), if_pos h]
    zify at hval
    linarith

/-- Settles O51: the delivered buffer is the extended one, whose signed value is the argument's. -/
theorem sextBufKeepsTheSignedValue : Obligations.SextBufKeepsTheSignedValue :=
  fun s _ _ h1 hn => ⟨_, exec_sextBuf_fits s h1 hn, length_signExtendBuf hn, signed_signExtendBuf h1 hn⟩

end Sys2Proof.Machine
end

section
/-! PROOFS. The statements about encodings (spec/30_encoding.md). First the two ways a form is encoded and the two ways stream bytes decode,
which give the round trip in both directions and what `resolve` reads; then the table's masks as conditions on the fields of the two bytes. -/

namespace Sys2Proof.Machine

/-! ### The decoder on stream bytes -/

/-- A ModRM byte that is a form by itself decodes to it, whatever follows. -/
theorem decode_of_modrm {m : Byte} {i : Instr} (h : decodeModRM m = some i) (rest : List Byte) :
    decode (.stream (m :: rest)) = .ok (i, rest) := by
  simp [decode, decodeBytes, h]

/-- A ModRM byte that announces a SIB byte decodes together with it, whatever follows. -/
theorem decode_of_sib {m : Byte} (h : decodeModRM m = none) (b : Byte) (rest : List Byte) :
    decode (.stream (m :: b :: rest)) = .ok (decodeSib m b, rest) := by
  simp [decode, decodeBytes, h]

/-- ALL ways stream bytes decode: a ModRM byte that is a form by itself, or one that announces a SIB byte and that byte. -/
theorem decode_stream_cases {bytes rest : List Byte} {i : Instr} (h : decode (.stream bytes) = .ok (i, rest)) :
    (∃ m, bytes = m :: rest ∧ decodeModRM m = some i) ∨
    (∃ m b, bytes = m :: b :: rest ∧ decodeModRM m = none ∧ decodeSib m b = i) := by
  match bytes with
  | [] => cases h
  | m :: tail =>
    cases hm : decodeModRM m with
    | some j => rw [decode_of_modrm hm] at h; cases h; exact .inl ⟨m, rfl, hm⟩
    | none =>
      match tail with
      | [] => simp [decode, decodeBytes, hm] at h
      | b :: tail => rw [decode_of_sib hm] at h; cases h; exact .inr ⟨m, b, rfl, hm, rfl⟩

/-- Only a ModRM byte that announces a SIB byte lacks one (R53). -/
theorem decodeModRM_eq_none_of_sibMissing {m : Byte} (h : decode (.stream [m]) = .error .sibMissing) : decodeModRM m = none := by
  cases hm : decodeModRM m with
  | none => rfl
  | some i => rw [decode_of_modrm hm] at h; cases h

/-- A well-formed form is encoded by a ModRM byte that selects it, or by a ModRM byte that announces a SIB byte and the SIB byte that selects
it together with that one (R56). -/
theorem encode_form_cases {i : Instr} (hw : i.wellFormed = true) (hf : i.isForm = true) :
    (∃ m, (encode i).bytes = [m] ∧ decodeModRM m = some i) ∨
    (∃ m b, (encode i).bytes = [m, b] ∧ decodeModRM m = none ∧ decodeSib m b = i) := by
  cases i with
  | sextInt | sextBuf | zextInt | zextBuf | parity | msb | lsb => cases hf
  | rmReg | rmAbs32 | rmBase | rmBaseD8 | rmBaseD32 => exact .inl ⟨_, rfl, by simp_all [Instr.wellFormed, decodeModRM]⟩
  | sibAbs32 | sibIdxAbs32 | sibBase | sibBaseIdx | sibBaseD8 | sibBaseIdxD8 | sibBaseD32 | sibBaseIdxD32 =>
    exact .inr ⟨_, _, rfl, decodeModRM_sib _ _ (by decide), by simp_all [Instr.wellFormed, decodeSib_packByte]⟩

/-! ### The round trip -/

/-- The select and the used ports of a primitive decode to it (R60). -/
theorem decode_encode_prim {i : Instr} (hf : i.isForm = false) : decode (encode i) = .ok (i, []) := by
  cases i with
  | sextInt | sextBuf | zextInt | zextBuf | parity | msb | lsb => rfl
  | rmReg | rmAbs32 | rmBase | rmBaseD8 | rmBaseD32 | sibAbs32 | sibIdxAbs32 | sibBase | sibBaseIdx | sibBaseD8 | sibBaseIdxD8
  | sibBaseD32 | sibBaseIdxD32 => cases hf

/-- Settles O2, by the two ways a form is encoded; a primitive by its ports. -/
theorem decodeOfEncodeIsTheInstruction : Obligations.DecodeOfEncodeIsTheInstruction := by
  intro i hw
  refine ⟨fun hf rest => ?_, decode_encode_prim⟩
  obtain ⟨m, he, hm⟩ | ⟨m, b, he, hm, rfl⟩ := encode_form_cases hw hf
  · rw [he]; exact decode_of_modrm hm rest
  · rw [he]; exact decode_of_sib hm b rest

/-- Settles O3, by the two ways stream bytes decode. -/
theorem encodeOfDecodeGivesTheBytes : Obligations.EncodeOfDecodeGivesTheBytes := by
  intro bytes i rest h
  obtain ⟨m, rfl, hm⟩ | ⟨m, b, rfl, hm, rfl⟩ := decode_stream_cases h
  · obtain ⟨hf, hw, he⟩ := decodeModRM_some hm
    exact ⟨hw, hf, by rw [he]; rfl⟩
  · obtain ⟨hf, hw, he⟩ := decodeSib_spec hm b
    exact ⟨hw, hf, by rw [he]; rfl⟩

/-- Settles O5: the first byte is a form or announces the second, and no meaning without an index mentions the scale. -/
theorem noStreamByteIsRefused : Obligations.NoStreamByteIsRefused := by
  refine ⟨fun m b rest => ?_, fun _ _ _ _ _ => ⟨rfl, rfl, rfl, rfl⟩⟩
  cases hm : decodeModRM m with
  | some i => exact ⟨i, _, decode_of_modrm hm _, (decodeModRM_some hm).1⟩
  | none => exact ⟨_, _, decode_of_sib hm b rest, (decodeSib_spec hm b).1⟩

/-- Settles O1 by evaluation of the decoder. -/
theorem wordsOfTheSpecDecode : Obligations.WordsOfTheSpecDecode := ⟨rfl, rfl, rfl, rfl, rfl, rfl⟩

/-! ### A step and the decoder -/

/-- Settles O8: the bytes the stream supplies are the ones that decode, so they select the form, and its encoding is as long as they are. -/
theorem stepRunsTheDecodedForm : Obligations.StepRunsTheDecodedForm := by
  intro s i modrm sib ⟨hq, ha⟩ hm
  refine ⟨fun h => ?_, fun hmissing hb h => ?_⟩
  · obtain ⟨m, hbytes, hi⟩ | ⟨m, b, hbytes, -, -⟩ := decode_stream_cases h <;> cases hbytes
    obtain ⟨-, -, he⟩ := decodeModRM_some hi
    rw [step_of_selects hq ha ⟨modrm, hm, .inl hi⟩, he]; rfl
  · have hn := decodeModRM_eq_none_of_sibMissing hmissing
    rw [decode_of_sib hn] at h
    cases h
    obtain ⟨-, -, he⟩ := decodeSib_spec hn sib
    rw [step_of_selects hq ha ⟨modrm, hm, .inr ⟨hn, sib, hb, rfl⟩⟩, he]; rfl

/-- A primitive call that selects an operation runs it on its ports (R60). -/
theorem step_of_decodePrim {s : State} {c : PrimCall} {i : Instr} (hq : s.request = some (.prim c)) (h : decodePrim c = .ok i) :
    step s = exec i s.accept := by
  rw [step_prim hq, evaluate, h]

/-- Settles O9: a primitive call decodes through its select alone. -/
theorem stepRunsTheDecodedPrimitive : Obligations.StepRunsTheDecodedPrimitive := by
  intro s c i hq h
  cases hc : decodePrim c with
  | error e => rw [decode, hc] at h; cases h
  | ok j => rw [decode, hc] at h; cases h; exact step_of_decodePrim hq hc

/-- Settles O7: each select below 7 decodes to its operation, 7 to none. -/
theorem primOpSelectsTheSevenOperations : Obligations.PrimOpSelectsTheSevenOperations := by
  intro s value buf n call
  have hrun : ∀ op i, decodePrim ⟨op, value, buf, n⟩ = .ok i → step (call op) = exec i s.accept := fun _ _ => step_of_decodePrim rfl
  exact ⟨hrun 0 _ rfl, hrun 1 _ rfl, hrun 2 _ rfl, hrun 3 _ rfl, hrun 4 _ rfl, hrun 5 _ rfl, hrun 6 _ rfl, rfl⟩

/-! ### A form standing in the stream -/

/-- Any run of bytes standing in the stream at the cursor, no read of it denied, is supplied piece by piece. -/
theorem State.supplyAt_of_stream {s : State} {bytes : List Byte} {k n : Nat} (htop : s.cursor + bytes.length ≤ Config.streamTop)
    (hden : s.denied = []) (hread : ∀ j, j < bytes.length → s.stream.read (s.cursor + j) = bytes[j]?) (hk : k + n ≤ bytes.length) :
    s.supplyAt k n = some ((bytes.drop k).take n) := by
  refine State.supply_eq_some.2 ⟨?_, by simp [hden], by simp; omega, fun j hj => ?_⟩
  · simp only [State.advance_cursor]; omega
  · rw [List.getElem?_take_of_lt hj, List.getElem?_drop, ← hread (k + j) (by omega), ← Nat.add_assoc]; rfl

/-- The bytes of a form and its trailer standing in the stream at the cursor are read in full. -/
theorem State.reads_of_stream {s : State} {i : Instr} {trailer : List Byte} (hw : i.wellFormed = true) (hf : i.isForm = true)
    (hlen : trailer.length = i.trailer.bytes) (htop : s.cursor + i.length ≤ Config.streamTop) (hden : s.denied = [])
    (hread : ∀ k, k < i.length → s.stream.read (s.cursor + k) = ((encode i).bytes ++ trailer)[k]?) :
    s.Reads i (littleEndian trailer) := by
  have hl : ((encode i).bytes ++ trailer).length = i.length := by rw [List.length_append, hlen]; rfl
  have hsupply : ∀ k n, k + n ≤ i.length → s.supplyAt k n = some ((((encode i).bytes ++ trailer).drop k).take n) := fun k n hk =>
    State.supplyAt_of_stream (hl ▸ htop) hden (hl ▸ hread) (hl ▸ hk)
  have htrailer : (s.advance (encode i).bytes.length).trailerValue i.trailer.bytes = some (littleEndian trailer) := by
    by_cases h0 : i.trailer.bytes = 0
    · rw [State.trailerValue, if_pos h0, List.length_eq_zero_iff.1 (hlen.trans h0)]; rfl
    · refine (State.trailerValue_eq_some h0).2 ⟨trailer, (hsupply _ _ le_rfl).trans ?_, rfl⟩
      rw [List.drop_left, ← hlen, List.take_length]
  have hfirst : 1 ≤ i.length → s.supply 1 = some (((encode i).bytes ++ trailer).take 1) := hsupply 0 1
  refine ⟨?_, htrailer⟩
  obtain ⟨m, he, hm⟩ | ⟨m, b, he, hm, hi⟩ := encode_form_cases hw hf <;> simp only [Instr.length, he] at hsupply hfirst
  · exact ⟨m, hfirst (Nat.le_add_right _ _), .inl hm⟩
  · exact ⟨m, hfirst (by simp; omega), .inr ⟨hm, b, hsupply 1 1 (Nat.le_add_right _ _), hi⟩⟩

/-- Settles O34: the form is read in full, so it is completed. -/
theorem encodedFormResolvesFromTheStream : Obligations.EncodedFormResolvesFromTheStream := by
  intro s i trailer hw hf ⟨hq, ha⟩ hlen htop hden hread
  exact step_of_reads hq ha (State.reads_of_stream hw hf hlen htop hden hread)

/-! ### The form two bytes select -/

theorem packByte_inj {t t' : BitVec 2} {m l m' l' : RegIx} : packByte t m l = packByte t' m' l' ↔ t = t' ∧ m = m' ∧ l = l' := by
  refine ⟨fun h => ⟨?_, ?_, ?_⟩, fun ⟨ht, hm, hl⟩ => by rw [ht, hm, hl]⟩
  · simpa using congrArg fieldTop h
  · simpa using congrArg fieldMid h
  · simpa using congrArg fieldLow h

/-- The form the decoder selects for a ModRM byte and the byte after it. -/
def selectedForm (modrm sib : Byte) : Instr := (decodeModRM modrm).getD (decodeSib modrm sib)

/-- It is a well-formed form, and its encoding begins the two bytes. -/
theorem selectedForm_spec (modrm sib : Byte) :
    (selectedForm modrm sib).isForm = true ∧ (selectedForm modrm sib).wellFormed = true ∧
      (encode (selectedForm modrm sib)).bytes <+: [modrm, sib] := by
  cases hm : decodeModRM modrm with
  | some i =>
    obtain ⟨hf, hw, he⟩ := decodeModRM_some hm
    rw [selectedForm, hm, Option.getD_some, he]
    exact ⟨hf, hw, [sib], rfl⟩
  | none =>
    obtain ⟨hf, hw, he⟩ := decodeSib_spec hm sib
    rw [selectedForm, hm, Option.getD_none, he]
    exact ⟨hf, hw, List.prefix_rfl⟩

/-- The length of a well-formed form by the fields of the bytes that begin with its encoding (R54). -/
theorem length_of_encoding {i : Instr} {m b : Byte} (hf : i.isForm = true) (hw : i.wellFormed = true)
    (he : (encode i).bytes <+: [m, b]) :
    i.length =
      if fieldTop m = 3 then 1
      else if fieldTop m = 0 then (if fieldLow m = 4 then (if fieldLow b = 5 then 6 else 2) else if fieldLow m = 5 then 5 else 1)
      else if fieldTop m = 1 then (if fieldLow m = 4 then 3 else 2)
      else (if fieldLow m = 4 then 6 else 5) := by
  cases i with
  | sextInt | sextBuf | zextInt | zextBuf | parity | msb | lsb => cases hf
  | rmReg | rmAbs32 | rmBase | rmBaseD8 | rmBaseD32 | sibAbs32 | sibIdxAbs32 | sibBase | sibBaseIdx | sibBaseD8 | sibBaseIdxD8
  | sibBaseD32 | sibBaseIdxD32 =>
    simp [encode, Code.bytes, Instr.wellFormed] at he hw
    obtain ⟨rfl, rfl⟩ := he
    simp [hw, Instr.length, encode, Code.bytes, Instr.trailer, Trailer.bytes]

/-- Settles O37: the form two bytes select is well formed and encoded by them. -/
theorem lengthIsTheTableOfR54 : Obligations.LengthIsTheTableOfR54 := by
  intro md scale reg rm index base
  obtain ⟨hf, hw, he⟩ := selectedForm_spec (packByte md reg rm) (packByte scale index base)
  have h := length_of_encoding hf hw he
  simp only [fieldTop_packByte, fieldLow_packByte] at h
  exact h

/-! ### The opcode table -/

/-- A word is its two bytes. -/
theorem word_eq_iff_bytes (x y : BitVec 16) : x = y ↔ x.setWidth 8 = y.setWidth 8 ∧ x.extractLsb' 8 8 = y.extractLsb' 8 8 := by
  refine ⟨fun h => h ▸ ⟨rfl, rfl⟩, fun ⟨hlow, hhigh⟩ => ?_⟩
  simp only [BitVec.toNat_eq, BitVec.toNat_setWidth, BitVec.extractLsb'_toNat, Nat.shiftRight_eq_div_pow] at hlow hhigh ⊢
  omega

/-- A mask and match of 16 bits is one on each of the two bytes of a form's word (R62). -/
theorem formWord_and_eq_iff (m b : Byte) (mask pattern : BitVec 16) :
    formWord m b &&& mask = pattern ↔
      m &&& mask.setWidth 8 = pattern.setWidth 8 ∧ b &&& mask.extractLsb' 8 8 = pattern.extractLsb' 8 8 := by
  have hm : (formWord m b).setWidth 8 = m := by rw [formWord, BitVec.setWidth_append_eq_right]
  have hb : (formWord m b).extractLsb' 8 8 = b := by rw [formWord, BitVec.extractLsb'_append_eq_left]
  rw [word_eq_iff_bytes, BitVec.setWidth_and, BitVec.extractLsb'_and, hm, hb]

/-! The masks of the table keep whole fields of a ModRM or SIB byte. -/

@[simp] theorem and_topField (v : Byte) : v &&& 0xc0#8 = packByte (fieldTop v) 0 0 := by revert v; decide
@[simp] theorem and_topLowFields (v : Byte) : v &&& 0xc7#8 = packByte (fieldTop v) 0 (fieldLow v) := by revert v; decide
@[simp] theorem and_midLowFields (v : Byte) : v &&& 0x3f#8 = packByte 0 (fieldMid v) (fieldLow v) := by revert v; decide
@[simp] theorem and_midField (v : Byte) : v &&& 0x38#8 = packByte 0 (fieldMid v) 0 := by revert v; decide
@[simp] theorem and_lowField (v : Byte) : v &&& 0x07#8 = packByte 0 0 (fieldLow v) := by revert v; decide

/-- A match of the table is compared field by field. -/
theorem packByte_eq_iff (t : BitVec 2) (m l : RegIx) (v : Byte) :
    packByte t m l = v ↔ t = fieldTop v ∧ m = fieldMid v ∧ l = fieldLow v := by
  rw [← packByte_inj, packByte_fields]

@[simp] theorem fieldLow_ofNat (n : Nat) : fieldLow (BitVec.ofNat 8 n) = BitVec.ofNat 3 n := by
  simp only [fieldLow, BitVec.toNat_eq, BitVec.extractLsb'_toNat, BitVec.toNat_ofNat, Nat.shiftRight_zero]
  omega

@[simp] theorem fieldMid_ofNat (n : Nat) : fieldMid (BitVec.ofNat 8 n) = BitVec.ofNat 3 (n / 8) := by
  simp only [fieldMid, BitVec.toNat_eq, BitVec.extractLsb'_toNat, BitVec.toNat_ofNat, Nat.shiftRight_eq_div_pow]
  omega

@[simp] theorem fieldTop_ofNat (n : Nat) : fieldTop (BitVec.ofNat 8 n) = BitVec.ofNat 2 (n / 64) := by
  simp only [fieldTop, BitVec.toNat_eq, BitVec.extractLsb'_toNat, BitVec.toNat_ofNat, Nat.shiftRight_eq_div_pow]
  omega

/-- Of the 13 form rows, exactly the row of a well-formed form selects the word of the bytes that begin with its encoding (R62): each mask and
match is a condition on fields, which the encoding of the form decides. -/
theorem formRows_select_encoding {i : Instr} {m b : Byte} (hf : i.isForm = true) (hw : i.wellFormed = true)
    (he : (encode i).bytes <+: [m, b]) :
    (formRows.filter (fun r => r.selects (formWord m b))).map (fun r => (r.mnemonic, r.trailer, r.length)) =
      [(i.mnemonic, i.trailer, i.length)] := by
  cases i with
  | sextInt | sextBuf | zextInt | zextBuf | parity | msb | lsb => cases hf
  | rmReg | rmAbs32 | rmBase | rmBaseD8 | rmBaseD32 | sibAbs32 | sibIdxAbs32 | sibBase | sibBaseIdx | sibBaseD8 | sibBaseIdxD8
  | sibBaseD32 | sibBaseIdxD32 =>
    simp [encode, Code.bytes, Instr.wellFormed] at he hw
    obtain ⟨rfl, rfl⟩ := he
    simp [formRows, TableRow.selects, formWord_and_eq_iff, packByte_eq_iff, hw,
      Instr.mnemonic, Instr.length, encode, Code.bytes, Instr.trailer, Trailer.bytes]

theorem primOp_cases : ∀ op : BitVec 3, op = 0 ∨ op = 1 ∨ op = 2 ∨ op = 3 ∨ op = 4 ∨ op = 5 ∨ op = 6 ∨ op = 7 := by decide

/-- Of the 7 PRIM rows, exactly the row of the operation a select decodes to selects it, none selects 7 (R60). -/
theorem primRows_select_decoded (c : PrimCall) :
    (primRows.filter (fun r => r.selects (c.op.setWidth 16))).map (fun r => r.mnemonic) =
      match decodePrim c with
      | .ok i => [i.mnemonic]
      | .error _ => [] := by
  obtain ⟨op, value, buf, width⟩ := c
  obtain rfl | rfl | rfl | rfl | rfl | rfl | rfl | rfl := primOp_cases op <;>
    simp [primRows, TableRow.selects, decodePrim, Instr.mnemonic]

/-- Settles O4: two bytes select the form whose encoding they begin with, a primitive its own row. -/
theorem tableRowsSelectExactlyTheDecodedForm : Obligations.TableRowsSelectExactlyTheDecodedForm := by
  refine ⟨fun modrm sib => ?_, primRows_select_decoded⟩
  obtain ⟨hf, hw, he⟩ := selectedForm_spec modrm sib
  exact formRows_select_encoding hf hw he

end Sys2Proof.Machine
end

section
/-! PROOFS. The statements about the operand resolver (spec/40_operand_resolver.md): what the meaning of each form answers, each
form from the cursor at its ModRM byte to the descriptors, what its outcome depends on, a code placed by the host, the address as a sum, and
the algorithm of R89. -/

namespace Sys2Proof.Machine

/-! ### The meaning of each form -/

/-- Settles O30: a form without a trailer reads no stream byte, so its meaning is the return itself. -/
theorem formsWithoutTrailerComplete : Obligations.FormsWithoutTrailerComplete :=
  fun _ _ _ _ _ _ => ⟨rfl, rfl, rfl, rfl⟩

/-- Settles O31: each meaning goes on with the sign-extended byte. -/
theorem byteDisplacementFormsComplete : Obligations.ByteDisplacementFormsComplete := by
  intro s reg rm index base scale d8 h
  simp only [exec, execRmBaseD8, execSibBaseD8, execSibBaseIdxD8, readDisp_mod1 _ h]
  exact ⟨rfl, rfl, rfl⟩

/-- Settles O32: each meaning goes on with the little-endian word of the four bytes. -/
theorem wordTrailerFormsComplete : Obligations.WordTrailerFormsComplete := by
  intro s reg rm index base scale b0 b1 b2 b3 h
  simp only [exec, execRmAbs32, execRmBaseD32, execSibAbs32, execSibIdxAbs32, execSibBaseD32, execSibBaseIdxD32,
    readAbs32_some _ h, readDisp_mod2 _ h, ofNat_littleEndian_four]
  exact ⟨rfl, rfl, rfl, rfl, rfl, rfl⟩

/-- Settles O36, at the two MOD values that carry a displacement. -/
theorem dispWidthIsOneOrFour : Obligations.DispWidthIsOneOrFour :=
  ⟨rfl, rfl, fun | .mod1 => rfl | .mod2 => rfl⟩

/-! ### The shared start of a call -/

/-- A call in a mode below 32 bits (R71). -/
theorem step_unsupported {s : State} (hq : s.request = some .resolve) (ha : s.addressSize < 4) : step s = .next s.unsupported :=
  (step_resolve hq).trans (resolve_unsupported ha)

/-- Settles O12: the refused call leaves the address size as it was, so a repeated call is refused alike. -/
theorem unsupportedModeBeforeAnything : Obligations.UnsupportedModeBeforeAnything :=
  fun s hq ha => ⟨step_unsupported hq ha, step_unsupported (s := { s.unsupported with request := some .resolve }) rfl ha⟩

/-- A ModRM byte that is not supplied (R72). -/
theorem step_modrm_missing {s : State} (hq : s.request = some .resolve) (ha : 4 ≤ s.addressSize) (hm : s.supply 1 = none) :
    step s = .next (s.malformedAt 0 1) :=
  ((step_resolve hq).trans (resolve_reads ha)).trans (fetchRead_none _ hm)

theorem sharedErrors {s : State} (hq : s.request = some .resolve) : SharedErrors s :=
  ⟨step_unsupported hq, step_modrm_missing hq⟩

/-- A ModRM byte that is a form by itself: its meaning runs (R72). -/
theorem step_modrm_form {s : State} {m : Byte} {i : Instr} (hq : s.request = some .resolve) (ha : 4 ≤ s.addressSize)
    (hm : s.supply 1 = some [m]) (hi : decodeModRM m = some i) : step s = exec i (s.accept.advance 1) :=
  (step_of_modrm hq ha hm).trans (selectForm_some _ hi)

/-- A SIB byte that is announced and not supplied (R79). -/
theorem step_sib_missing {s : State} {m : Byte} (hq : s.request = some .resolve) (ha : 4 ≤ s.addressSize)
    (hm : s.supply 1 = some [m]) (hn : decodeModRM m = none) (hb : s.supplyAt 1 1 = none) : step s = .next (s.malformedAt 1 1) :=
  ((step_of_modrm hq ha hm).trans (selectForm_none _ hn)).trans (fetchRead_none _ hb)

/-- A SIB byte that is announced and supplied: the meaning of the form the two bytes select runs (R79). -/
theorem step_sib_form {s : State} {m b : Byte} (hq : s.request = some .resolve) (ha : 4 ≤ s.addressSize)
    (hm : s.supply 1 = some [m]) (hn : decodeModRM m = none) (hb : s.supplyAt 1 1 = some [b]) :
    step s = exec (decodeSib m b) (s.accept.advance 2) :=
  ((step_of_modrm hq ha hm).trans (selectForm_none _ hn)).trans (fetchRead_byte (fun sib t => exec (decodeSib m sib) t) hb)

/-- Settles O13: the ModRM byte is packed from its three fields, which select its form or announce a SIB byte. -/
theorem modrmIsFetchedAndSplitFirst : Obligations.ModrmIsFetchedAndSplitFirst := by
  rintro s ⟨hq, ha⟩
  refine ⟨step_modrm_missing hq ha, fun m hm => ?_⟩
  obtain ⟨md, reg, rm, rfl⟩ := exists_packByte m
  simp only [fieldTop_packByte, fieldMid_packByte, fieldLow_packByte]
  refine ⟨?_, ?_, ?_, ?_, ?_, ?_, ?_⟩
  · rintro rfl; exact step_modrm_form hq ha hm (decodeModRM_rmReg reg rm)
  · rintro h3 rfl; exact step_sib_missing hq ha hm (decodeModRM_sib md reg h3)
  · rintro h3 rfl _ hb; exact step_sib_form hq ha hm (decodeModRM_sib md reg h3) hb
  · rintro rfl h4 h5; exact step_modrm_form hq ha hm (decodeModRM_rmBase reg rm h4 h5)
  · rintro rfl rfl; exact step_modrm_form hq ha hm (decodeModRM_rmAbs32 reg)
  · rintro rfl h4; exact step_modrm_form hq ha hm (decodeModRM_rmBaseD8 reg rm h4)
  · rintro rfl h4; exact step_modrm_form hq ha hm (decodeModRM_rmBaseD32 reg rm h4)

/-! ### Each form, from the cursor at its ModRM byte to the descriptors -/

/-- A form without a SIB byte: the two shared errors, and else what follows from its meaning having run. -/
theorem modrm_form {s : State} {m : Byte} {i : Instr} {P : Prop} (hq : s.request = some .resolve) (hi : decodeModRM m = some i)
    (hP : step s = exec i (s.accept.advance 1) → P) :
    SharedErrors s ∧ (4 ≤ s.addressSize → s.supply 1 = some [m] → P) :=
  ⟨sharedErrors hq, fun ha hm => hP (step_modrm_form hq ha hm hi)⟩

/-- The two bytes that encode a well-formed form announce a SIB byte and select the form. -/
theorem decodeSib_of_encode {i : Instr} {m b : Byte} (hw : i.wellFormed = true) (hf : i.isForm = true)
    (he : (encode i).bytes = [m, b]) : decodeModRM m = none ∧ decodeSib m b = i := by
  obtain ⟨m', he', -⟩ | ⟨m', b', he', hn, hi⟩ := encode_form_cases hw hf <;> cases he.symm.trans he'
  exact ⟨hn, hi⟩

/-- A form with a SIB byte: the two shared errors, the failing SIB read, and else what follows from its meaning having run. -/
theorem sib_form {s : State} {m b : Byte} {P : Prop} (i : Instr) (hq : s.request = some .resolve) (hw : i.wellFormed = true)
    (hf : i.isForm = true) (he : (encode i).bytes = [m, b]) (hP : step s = exec i (s.accept.advance 2) → P) :
    SharedErrors s ∧ (4 ≤ s.addressSize → s.supply 1 = some [m] →
      (s.supplyAt 1 1 = none → step s = .next (s.malformedAt 1 1)) ∧ (s.supplyAt 1 1 = some [b] → P)) := by
  obtain ⟨hn, rfl⟩ := decodeSib_of_encode hw hf he
  exact ⟨sharedErrors hq, fun ha hm => ⟨step_sib_missing hq ha hm hn, fun hb => hP (step_sib_form hq ha hm hn hb)⟩⟩

/-- The meaning of a form that has run on a trailer that is not supplied (60 R121). -/
theorem step_trailer_missing {s : State} {i : Instr} {k n : Nat} (hf : i.isForm = true) (hn : i.trailer.bytes = n) (h0 : n ≠ 0)
    (hrun : step s = exec i (s.accept.advance k)) (h : s.supplyAt k n = none) : step s = .next (s.malformedAt k n) := by
  subst hn
  exact hrun.trans (exec_form_malformed hf (State.trailerValue_eq_none.2 ⟨h0, h⟩))

/-- Settles O17: the ModRM byte is RM_REG, whose meaning is the return itself. -/
theorem rmRegNamesBothRegisters : Obligations.RmRegNamesBothRegisters :=
  fun _ reg rm hq => modrm_form hq (decodeModRM_rmReg reg rm) fun hrun => hrun

/-- Settles O18: the ModRM byte is RM_BASE, whose meaning is the return itself. -/
theorem rmBaseAddressesThroughTheRegister : Obligations.RmBaseAddressesThroughTheRegister :=
  fun _ reg rm hq h4 h5 => modrm_form hq (decodeModRM_rmBase reg rm h4 h5) fun hrun => hrun

/-- Settles O19: the ModRM byte is RM_ABS32, which completes or fails by its trailer. -/
theorem rmAbs32TakesTheAddressFromTheStream : Obligations.RmAbs32TakesTheAddressFromTheStream := by
  intro s reg hq
  refine modrm_form hq (decodeModRM_rmAbs32 reg) fun hrun =>
    ⟨step_trailer_missing rfl rfl four_ne_zero hrun, fun b0 b1 b2 b3 h => ?_⟩
  obtain ⟨hexec, -⟩ := wordTrailerFormsComplete (s.accept.advance 1) reg 0 0 0 0 b0 b1 b2 b3 h
  exact hrun.trans hexec

/-- Settles O20: the ModRM byte is RM_BASE_D8, which completes or fails by its trailer. -/
theorem rmBaseD8AddsTheSignExtendedByte : Obligations.RmBaseD8AddsTheSignExtendedByte := by
  intro s reg rm hq h4
  refine modrm_form hq (decodeModRM_rmBaseD8 reg rm h4) fun hrun =>
    ⟨step_trailer_missing rfl rfl one_ne_zero hrun, fun d8 h => ?_⟩
  obtain ⟨hexec, -⟩ := byteDisplacementFormsComplete (s.accept.advance 1) reg rm 0 0 0 d8 h
  exact hrun.trans hexec

/-- Settles O21: the ModRM byte is RM_BASE_D32, which completes or fails by its trailer. -/
theorem rmBaseD32AddsTheDisplacement : Obligations.RmBaseD32AddsTheDisplacement := by
  intro s reg rm hq h4
  refine modrm_form hq (decodeModRM_rmBaseD32 reg rm h4) fun hrun =>
    ⟨step_trailer_missing rfl rfl four_ne_zero hrun, fun b0 b1 b2 b3 h => ?_⟩
  obtain ⟨-, hexec, -⟩ := wordTrailerFormsComplete (s.accept.advance 1) reg rm 0 0 0 b0 b1 b2 b3 h
  exact hrun.trans hexec

/-- Settles O22: the two bytes are SIB_BASE, whose meaning is the return itself. -/
theorem sibBaseAddressesThroughTheBase : Obligations.SibBaseAddressesThroughTheBase :=
  fun _ reg base scale hq h5 => sib_form (.sibBase reg scale base) hq (decide_eq_true h5) rfl rfl fun hrun => hrun

/-- Settles O23: the two bytes are SIB_BASE_IDX, whose meaning is the return itself. -/
theorem sibBaseIdxAddsTheScaledIndex : Obligations.SibBaseIdxAddsTheScaledIndex :=
  fun _ reg index base scale hq h4 h5 =>
    sib_form (.sibBaseIdx reg scale index base) hq (by simp_all [Instr.wellFormed]) rfl rfl fun hrun => hrun

/-- Settles O24: the two bytes are SIB_ABS32, which completes or fails by its trailer. -/
theorem sibAbs32IgnoresEveryRegister : Obligations.SibAbs32IgnoresEveryRegister := by
  intro s reg scale hq
  refine sib_form (.sibAbs32 reg scale) hq rfl rfl rfl fun hrun =>
    ⟨step_trailer_missing rfl rfl four_ne_zero hrun, fun b0 b1 b2 b3 h => ?_⟩
  obtain ⟨-, -, hexec, -⟩ := wordTrailerFormsComplete (s.accept.advance 2) reg 0 0 0 scale b0 b1 b2 b3 h
  exact hrun.trans hexec

/-- Settles O25: the two bytes are SIB_IDX_ABS32, which completes or fails by its trailer. -/
theorem sibIdxAbs32AddsTheScaledIndex : Obligations.SibIdxAbs32AddsTheScaledIndex := by
  intro s reg index scale hq h4
  refine sib_form (.sibIdxAbs32 reg scale index) hq (decide_eq_true h4) rfl rfl fun hrun =>
    ⟨step_trailer_missing rfl rfl four_ne_zero hrun, fun b0 b1 b2 b3 h => ?_⟩
  obtain ⟨-, -, -, hexec, -⟩ := wordTrailerFormsComplete (s.accept.advance 2) reg 0 index 0 scale b0 b1 b2 b3 h
  exact hrun.trans hexec

/-- Settles O26: the two bytes are SIB_BASE_D8, which completes or fails by its trailer. -/
theorem sibBaseD8AddsTheSignExtendedByte : Obligations.SibBaseD8AddsTheSignExtendedByte := by
  intro s reg base scale hq
  refine sib_form (.sibBaseD8 reg scale base) hq rfl rfl rfl fun hrun =>
    ⟨step_trailer_missing rfl rfl one_ne_zero hrun, fun d8 h => ?_⟩
  obtain ⟨-, hexec, -⟩ := byteDisplacementFormsComplete (s.accept.advance 2) reg 0 0 base scale d8 h
  exact hrun.trans hexec

/-- Settles O27: the two bytes are SIB_BASE_IDX_D8, which completes or fails by its trailer. -/
theorem sibBaseIdxD8SumsThreeTerms : Obligations.SibBaseIdxD8SumsThreeTerms := by
  intro s reg index base scale hq h4
  refine sib_form (.sibBaseIdxD8 reg scale index base) hq (decide_eq_true h4) rfl rfl fun hrun =>
    ⟨step_trailer_missing rfl rfl one_ne_zero hrun, fun d8 h => ?_⟩
  obtain ⟨-, -, hexec⟩ := byteDisplacementFormsComplete (s.accept.advance 2) reg 0 index base scale d8 h
  exact hrun.trans hexec

/-- Settles O28: the two bytes are SIB_BASE_D32, which completes or fails by its trailer. -/
theorem sibBaseD32AddsTheDisplacement : Obligations.SibBaseD32AddsTheDisplacement := by
  intro s reg base scale hq
  refine sib_form (.sibBaseD32 reg scale base) hq rfl rfl rfl fun hrun =>
    ⟨step_trailer_missing rfl rfl four_ne_zero hrun, fun b0 b1 b2 b3 h => ?_⟩
  obtain ⟨-, -, -, -, hexec, -⟩ := wordTrailerFormsComplete (s.accept.advance 2) reg 0 0 base scale b0 b1 b2 b3 h
  exact hrun.trans hexec

/-- Settles O29: the two bytes are SIB_BASE_IDX_D32, which completes or fails by its trailer. -/
theorem sibBaseIdxD32SumsThreeTerms : Obligations.SibBaseIdxD32SumsThreeTerms := by
  intro s reg index base scale hq h4
  refine sib_form (.sibBaseIdxD32 reg scale index base) hq (decide_eq_true h4) rfl rfl fun hrun =>
    ⟨step_trailer_missing rfl rfl four_ne_zero hrun, fun b0 b1 b2 b3 h => ?_⟩
  obtain ⟨-, -, -, -, -, hexec⟩ := wordTrailerFormsComplete (s.accept.advance 2) reg 0 index base scale b0 b1 b2 b3 h
  exact hrun.trans hexec

/-! ### What a form's outcome depends on, and all the ways a call ends -/

/-- The table's RM operand depends on the registers its row reads only (R96 d). -/
theorem rmOperand_regs {i : Instr} {s : State} {regs : Vector Word 8} (v : Nat)
    (h : ∀ r ∈ Reference.regsRead i, ({ s with regs := regs } : State).reg r = s.reg r) :
    Reference.rmOperand { s with regs := regs } v i = Reference.rmOperand s v i := by
  cases i <;> simp_all [Reference.rmOperand, Reference.regsRead]

/-- Settles O43: a form reads the same trailer whatever the registers hold, and its operand depends on its row's alone; a primitive's
answer is the same in every state. -/
theorem onlyTheFormsRegistersAreRead : Obligations.OnlyTheFormsRegistersAreRead := by
  intro s t i regs h hregs
  cases hi : i.isForm with
  | true =>
    cases hv : s.trailerValue i.trailer.bytes with
    | some v =>
      rw [exec_form_completes hi hv] at h
      cases h
      rw [exec_form_completes (s := { s with regs := regs }) hi hv, rmOperand_regs v hregs]
      rfl
    | none =>
      rw [exec_form_malformed hi hv] at h
      cases h
      exact exec_form_malformed (s := { s with regs := regs }) hi hv
  | false =>
    obtain ⟨d, -, -, hd⟩ | ⟨r, hr⟩ := exec_prim_cases hi
    · rw [hd] at h
      cases h
      exact hd _
    · rw [hr] at h
      cases h

/-- Settles O45: the outcomes of `resolve`, where only the ModRM read stands at position `c`. -/
theorem resolveEndsInOperandsOrOneOfTwoErrors : Obligations.ResolveEndsInOperandsOrOneOfTwoErrors := by
  intro s hq
  obtain hmode | ⟨ha, i, v, -, hstep⟩ | ⟨ha, k, n, hk, hn, h0, hnone, hbefore, hstep⟩ := step_resolve_cases hq
  · exact .inl hmode
  · exact .inr ⟨ha, .inl ⟨_, _, _, hstep⟩⟩
  · exact .inr ⟨ha, .inr ⟨k, n, by omega, hnone, hbefore, hstep⟩⟩

/-! ### A code placed through the host's interface -/

/-- The placed bytes stand in the stream and no read of them is denied, so each is supplied by a read of its own. -/
theorem State.supplyAt_present {s : State} {bytes : List Byte} {k : Nat} {b : Byte} (htop : s.cursor + bytes.length ≤ Config.streamTop)
    (hb : bytes[k]? = some b) : (s.present (.stream bytes)).supplyAt k 1 = some [b] := by
  obtain ⟨hk, -⟩ := List.getElem?_eq_some_iff.1 hb
  refine State.supply_eq_some.2 ⟨?_, ?_, rfl, fun j hj => ?_⟩
  · show s.cursor + k + 1 ≤ Config.streamTop
    omega
  · simp [State.present, hk]
  · obtain rfl : j = 0 := by omega
    show (s.stream.writeBytes s.cursor bytes).read (s.cursor + k) = some b
    rw [Memory.read_writeBytes _ _ _ _ htop, if_pos (by omega), Nat.add_sub_cancel_left, hb]

/-- The placed bytes select the form they decode to. -/
theorem State.selects_present {s : State} {bytes rest : List Byte} {i : Instr} (h : decode (.stream bytes) = .ok (i, rest))
    (htop : s.cursor + bytes.length ≤ Config.streamTop) : (s.present (.stream bytes)).Selects i := by
  obtain ⟨m, rfl, hm⟩ | ⟨m, b, rfl, hm, hi⟩ := decode_stream_cases h
  · exact ⟨m, State.supplyAt_present (k := 0) htop rfl, .inl hm⟩
  · exact ⟨m, State.supplyAt_present (k := 0) htop rfl, .inr ⟨hm, b, State.supplyAt_present htop rfl, hi⟩⟩

/-- A primitive call decodes through its select alone (R60). -/
theorem decodePrim_of_decode {c : PrimCall} {i : Instr} {rest : List Byte} (h : decode (.prim c) = .ok (i, rest)) :
    decodePrim c = .ok i := by
  cases hc : decodePrim c with
  | error e => rw [decode, hc] at h; cases h
  | ok j => rw [decode, hc] at h; cases h; rfl

/-- A primitive is not encoded in the stream (R60). -/
theorem encode_bytes_of_prim {i : Instr} (hf : i.isForm = false) : (encode i).bytes = [] := by
  cases i with
  | sextInt | sextBuf | zextInt | zextBuf | parity | msb | lsb => rfl
  | rmReg | rmAbs32 | rmBase | rmBaseD8 | rmBaseD32 | sibAbs32 | sibIdxAbs32 | sibBase | sibBaseIdx | sibBaseD8 | sibBaseIdxD8
  | sibBaseD32 | sibBaseIdxD32 => cases hf

/-- Settles O11: placed bytes select their form in an accepted address size; a primitive has no bytes to move past. -/
theorem presentedCodeRunsNext : Obligations.PresentedCodeRunsNext := by
  intro s c i rest h htop
  cases c with
  | stream bytes => exact step_of_selects rfl (Nat.le_max_right _ _) (State.selects_present h htop)
  | prim c =>
    have hc := decodePrim_of_decode h
    rw [encode_bytes_of_prim (decodePrim_isForm hc)]
    exact step_of_decodePrim rfl hc

/-! ### The address as a sum of signed or of unsigned terms -/

/-- `w` is the pattern of the signed value `z` and of the unsigned value `u` (R88). -/
def ReadAs (w : Word) (z : Int) (u : Nat) : Prop := BitVec.ofInt 32 z = w ∧ BitVec.ofNat 32 u = w

theorem ReadAs.add {w w' : Word} {z z' : Int} {u u' : Nat} (h : ReadAs w z u) (h' : ReadAs w' z' u') :
    ReadAs (w + w') (z + z') (u + u') := by
  obtain ⟨hz, hu⟩ := h
  obtain ⟨hz', hu'⟩ := h'
  exact ⟨by rw [BitVec.ofInt_add, hz, hz'], by rw [BitVec.ofNat_add, hu, hu']⟩

/-- Four bytes have one pattern, read as a signed or as an unsigned value. -/
theorem readAs_ofNat (v : Nat) : ReadAs (BitVec.ofNat 32 v) (signExtendInt v .w4) v := by
  refine ⟨?_, rfl⟩
  have hpow : BitVec.ofInt 32 (-2 ^ OpWidth.w4.bits) = 0#32 := by decide
  rw [signExtendInt, if_neg (Int.not_lt.2 (Int.natCast_nonneg v))]
  split_ifs
  · rw [Int.sub_eq_add_neg, BitVec.ofInt_add, hpow, BitVec.ofInt_natCast, BitVec.add_zero]
  · exact BitVec.ofInt_natCast 32 v

theorem readAs_reg (s : State) (i : RegIx) : ReadAs (s.reg i) (signExtendInt (s.reg i).toNat .w4) (s.reg i).toNat := by
  simpa using readAs_ofNat (s.reg i).toNat

/-- Shifting a register by the scale multiplies both its readings (R88). -/
theorem readAs_scaled (s : State) (i : RegIx) (scale : ScaleBits) :
    ReadAs (s.reg i <<< scale.toNat) (signExtendInt (s.reg i).toNat .w4 * (2 ^ scale.toNat : Nat)) ((s.reg i).toNat * 2 ^ scale.toNat) := by
  obtain ⟨hz, hu⟩ := readAs_reg s i
  have hmul : s.reg i <<< scale.toNat = s.reg i * BitVec.ofNat 32 (2 ^ scale.toNat) := State.scaled_eq_mul s i scale
  exact ⟨by rw [hmul, BitVec.ofInt_mul, hz, BitVec.ofInt_natCast], by rw [hmul, BitVec.ofNat_mul, hu]⟩

/-- The byte displacement is sign-extended first, by the resolver as by the primitive (R110). -/
theorem readAs_byte : ∀ d : Byte, ReadAs (d.signExtend 32) (signExtendInt d.toNat .w1) (Reference.sext 1 d.toNat) := by
  unfold ReadAs
  decide

theorem readAs_word (b0 b1 b2 b3 : Byte) :
    ReadAs (wordOfBytes b0 b1 b2 b3) (signExtendInt (littleEndian [b0, b1, b2, b3]) .w4) (littleEndian [b0, b1, b2, b3]) :=
  ofNat_littleEndian_four b0 b1 b2 b3 ▸ readAs_ofNat _

/-- A form that completes with an address has both readings of it. -/
theorem addresses_of_completed {s : State} {i : Instr} {n : Nat} {reg : RegIx} {w : Word} {z : Int} {u : Nat}
    (hexec : exec i s = .next (s.completed n (.memory w s.widthA) reg)) (hw : ReadAs w z u) : Reference.Addresses s i n reg z u := by
  obtain ⟨hz, hu⟩ := hw
  exact ⟨hz ▸ hexec, hu ▸ hexec⟩

/-- Settles O35: the address each form completes with is the sum of its terms, each of which has both readings. -/
theorem addressTermsMayBeReadSignedOrUnsigned : Obligations.AddressTermsMayBeReadSignedOrUnsigned := by
  intro s reg rm index base scale x u k
  have hrm := readAs_reg s rm
  have hbase := readAs_reg s base
  have hindex := readAs_scaled s index scale
  refine ⟨?_, fun d hd => ?_, fun bs hbs => ?_⟩
  · obtain ⟨-, -, -, hexec⟩ := formsWithoutTrailerComplete s reg rm index base scale
    exact addresses_of_completed hexec (hindex.add hbase)
  · obtain ⟨hrmD8, hbaseD8, hbaseIdxD8⟩ := byteDisplacementFormsComplete s reg rm index base scale d hd
    have hdisp := readAs_byte d
    exact ⟨addresses_of_completed hrmD8 (hrm.add hdisp), addresses_of_completed hbaseD8 (hdisp.add hbase),
      addresses_of_completed hbaseIdxD8 ((hdisp.add hindex).add hbase)⟩
  · obtain ⟨b0, b1, b2, b3, rfl⟩ := State.supply_word hbs
    obtain ⟨-, hrmD32, -, hidxAbs32, hbaseD32, hbaseIdxD32⟩ := wordTrailerFormsComplete s reg rm index base scale b0 b1 b2 b3 hbs
    have hdisp := readAs_word b0 b1 b2 b3
    exact ⟨addresses_of_completed hrmD32 (hrm.add hdisp), addresses_of_completed hidxAbs32 (hindex.add hdisp),
      addresses_of_completed hbaseD32 (hdisp.add hbase), addresses_of_completed hbaseIdxD32 ((hdisp.add hindex).add hbase)⟩

/-! ### The algorithm of R89 -/

/-- An answer to the call on `s` is the delivery and the cursor the reference computes, all else as before. -/
def Mirrors (s : State) (a : Answer) (r : Delivery × Nat) : Prop :=
  a = .next { s with request := none, cursor := r.2, delivered := some r.1 }

theorem reference_fetch_none {s : State} {c n : Nat} (go : Nat → Nat → Delivery × Nat)
    (h : ({ s with cursor := c } : State).supply n = none) :
    Reference.fetch s c n go = (.error (.malformedStream c n s.report), c) := by
  rw [Reference.fetch, h]

theorem reference_fetch_some {s : State} {c n : Nat} {bs : List Byte} (go : Nat → Nat → Delivery × Nat)
    (h : ({ s with cursor := c } : State).supply n = some bs) : Reference.fetch s c n go = go (littleEndian bs) (c + n) := by
  rw [Reference.fetch, h]

/-- The two reads after `k` bytes have the same outcome where they go on alike. -/
theorem mirrors_fetch {s : State} {k n : Nat} {go : Nat → State → Answer} {go' : Nat → Nat → Delivery × Nat}
    (h : ∀ bs, s.supplyAt k n = some bs →
      Mirrors s (go (littleEndian bs) (s.accept.advance (k + n))) (go' (littleEndian bs) (s.cursor + (k + n)))) :
    Mirrors s (fetchRead n (s.accept.advance k) go) (Reference.fetch s (s.cursor + k) n go') := by
  cases hs : s.supplyAt k n with
  | none => rw [reference_fetch_none go' hs]; exact fetchRead_none go hs
  | some bs =>
    rw [reference_fetch_some go' hs, fetchRead_some (s := s.accept.advance k) go hs, State.advance_advance, Nat.add_assoc]
    exact h bs hs

/-- The two returns, where the reference's number is the model's address modulo 2^32. -/
theorem mirrors_return {s : State} {k addr : Nat} {w : Word} {reg : RegIx} (h : BitVec.ofNat 32 addr = w) :
    Mirrors s (returnOperands (memoryAt w) reg (s.accept.advance k)) (Reference.finish s reg.toNat addr (s.cursor + k)) := by
  have haddr : BitVec.ofNat 32 (addr % 2 ^ 32) = w := by simpa [BitVec.toNat_eq] using h
  rw [Reference.finish, haddr, BitVec.ofNat_toNat, BitVec.setWidth_eq]
  rfl

/-- The model's sign extension of a displacement is the reference's. -/
theorem sext32_dispWidth (m : DispMod) {d : Nat} (hd : d < 2 ^ (8 * dispWidth m)) :
    sext32 (dispWidth m) d = BitVec.ofNat 32 (Reference.sext (dispWidth m) d) := by
  cases m with
  | mod1 => exact sext32_one_eq_reference hd
  | mod2 => exact (sext32_word d).trans (by simp [Reference.sext, dispWidth, DispMod.mod])

/-- The two displacement reads have the same outcome where they go on alike. -/
theorem mirrors_readDisp {s : State} {k n : Nat} {go : Word → State → Answer} {go' : Nat → Nat → Delivery × Nat} (m : DispMod)
    (hn : dispWidth m = n)
    (h : ∀ d, Mirrors s (go (BitVec.ofNat 32 (Reference.sext n d)) (s.accept.advance (k + n))) (go' d (s.cursor + (k + n)))) :
    Mirrors s (readDisp m (s.accept.advance k) go) (Reference.fetch s (s.cursor + k) n go') := by
  subst hn
  refine mirrors_fetch fun bs hbs => ?_
  rw [sext32_dispWidth m (State.supply_value_lt hbs)]
  exact h _

/-! The fields of a byte as the reference computes them. -/

@[simp] theorem packByte_mod_eight (t : BitVec 2) (m l : RegIx) : (packByte t m l).toNat % 8 = l.toNat := by revert t m l; decide
@[simp] theorem packByte_div_eight (t : BitVec 2) (m l : RegIx) : (packByte t m l).toNat / 8 % 8 = m.toNat := by revert t m l; decide
@[simp] theorem packByte_div_sixtyFour (t : BitVec 2) (m l : RegIx) : (packByte t m l).toNat / 64 = t.toNat := by revert t m l; decide

@[simp] theorem ofNat_x (s : State) (i : RegIx) : BitVec.ofNat 32 (Reference.x s i.toNat) = s.reg i := by simp [Reference.x]

/-- A form without a SIB byte mirrors steps 2 and 3 of the algorithm, which choose by the same fields. -/
theorem mirrors_modrm_form {s : State} {m : Byte} {i : Instr} (ha : 4 ≤ s.addressSize) (hm : s.supply 1 = some [m])
    (hi : decodeModRM m = some i) : Mirrors s (exec i (s.accept.advance 1)) (Reference.resolve s) := by
  obtain ⟨md, reg, rm, rfl⟩ := exists_packByte m
  simp only [decodeModRM, fieldTop_packByte, fieldMid_packByte, fieldLow_packByte, BitVec.toNat_eq, BitVec.reduceToNat] at hi
  rw [Reference.resolve, if_neg (Nat.not_lt.2 ha), reference_fetch_some _ hm]
  simp only [littleEndian_one, packByte_mod_eight, packByte_div_eight, packByte_div_sixtyFour]
  split_ifs at hi with h3 h4 h1 h2 h5 <;> cases hi
  · rw [if_pos h3, BitVec.ofNat_toNat, BitVec.ofNat_toNat, BitVec.setWidth_eq, BitVec.setWidth_eq]
    rfl
  · rw [if_neg h3, if_pos h4, if_neg (by omega), if_pos (.inl h1), h1, exec, execRmBaseD8]
    refine mirrors_readDisp .mod1 rfl fun d => mirrors_return ?_
    simp [BitVec.ofNat_add]
  · rw [if_neg h3, if_pos h4, if_neg (by omega), if_pos (.inr h2), h2, exec, execRmBaseD32]
    refine mirrors_readDisp .mod2 rfl fun d => mirrors_return ?_
    simp [BitVec.ofNat_add]
  · rw [if_neg h3, if_pos h4, if_pos ⟨by omega, h5⟩, exec, execRmAbs32]
    exact mirrors_fetch fun bs hbs => mirrors_return rfl
  · rw [if_neg h3, if_pos h4, if_neg (by omega), if_neg (by omega), exec, execRmBase]
    exact mirrors_return (ofNat_x s rm)

/-- The index term of a SIB byte: none where index = 100 (R79). -/
def State.indexTerm (s : State) (index : RegIx) (scale : ScaleBits) : Word := if index = 4 then 0 else s.scaled index scale

theorem State.indexTerm_of_eq {index : RegIx} (h : index = 4) (s : State) (scale : ScaleBits) : s.indexTerm index scale = 0 := if_pos h

theorem State.indexTerm_of_ne {index : RegIx} (h : index ≠ 4) (s : State) (scale : ScaleBits) :
    s.indexTerm index scale = s.scaled index scale := if_neg h

@[simp] theorem State.indexTerm_accept (s : State) (index : RegIx) (scale : ScaleBits) :
    s.accept.indexTerm index scale = s.indexTerm index scale := rfl
@[simp] theorem State.indexTerm_advance (s : State) (n : Nat) (index : RegIx) (scale : ScaleBits) :
    (s.advance n).indexTerm index scale = s.indexTerm index scale := rfl

/-! The meanings of the SIB forms, with and without an index alike. -/

theorem exec_sib_d8 (s : State) (reg index base : RegIx) (scale : ScaleBits) :
    exec (if index = 4 then .sibBaseD8 reg scale base else .sibBaseIdxD8 reg scale index base) s =
      readDisp .mod1 s fun d t => returnOperands (memoryAt (d + t.indexTerm index scale + t.reg base)) reg t := by
  by_cases h : index = 4
  · rw [if_pos h]
    simp [State.indexTerm_of_eq h, exec, execSibBaseD8]
  · simp only [if_neg h, State.indexTerm_of_ne h]
    rfl

theorem exec_sib_d32 (s : State) (reg index base : RegIx) (scale : ScaleBits) :
    exec (if index = 4 then .sibBaseD32 reg scale base else .sibBaseIdxD32 reg scale index base) s =
      readDisp .mod2 s fun d t => returnOperands (memoryAt (d + t.indexTerm index scale + t.reg base)) reg t := by
  by_cases h : index = 4
  · rw [if_pos h]
    simp [State.indexTerm_of_eq h, exec, execSibBaseD32]
  · simp only [if_neg h, State.indexTerm_of_ne h]
    rfl

theorem exec_sib_abs32 (s : State) (reg index : RegIx) (scale : ScaleBits) :
    exec (if index = 4 then .sibAbs32 reg scale else .sibIdxAbs32 reg scale index) s =
      fetchRead 4 s fun a t => returnOperands (memoryAt (s.indexTerm index scale + BitVec.ofNat 32 a)) reg t := by
  by_cases h : index = 4
  · rw [if_pos h]
    simp [State.indexTerm_of_eq h, exec, execSibAbs32, readAbs32]
  · simp only [if_neg h, State.indexTerm_of_ne h]
    rfl

theorem exec_sib_base (s : State) (reg index base : RegIx) (scale : ScaleBits) :
    exec (if index = 4 then .sibBase reg scale base else .sibBaseIdx reg scale index base) s =
      returnOperands (memoryAt (s.indexTerm index scale + s.reg base)) reg s := by
  by_cases h : index = 4
  · rw [if_pos h]
    simp [State.indexTerm_of_eq h, exec, execSibBase]
  · simp only [if_neg h, State.indexTerm_of_ne h]
    rfl

/-- Step 4c: the scaled index register is added to the address so far. -/
def referenceAddIndex (s : State) (scale index addr : Nat) : Nat :=
  if index ≠ 4 then addr + Reference.x s index * 2 ^ scale else addr

/-- Step 4c adds the model's index term. -/
theorem ofNat_referenceAddIndex (s : State) (index : RegIx) (scale : ScaleBits) (addr : Nat) :
    BitVec.ofNat 32 (referenceAddIndex s scale.toNat index.toNat addr) = BitVec.ofNat 32 addr + s.indexTerm index scale := by
  by_cases h : index = 4
  · simp [h, referenceAddIndex, State.indexTerm_of_eq]
  · have hi : index.toNat ≠ 4 := fun hn => h (BitVec.eq_of_toNat_eq hn)
    rw [referenceAddIndex, if_pos hi, State.indexTerm_of_ne h, State.scaled_eq_mul, BitVec.ofNat_add, BitVec.ofNat_mul, ofNat_x]

/-- Steps 4c to 4e, from the address so far. -/
def referenceAddTerms (s : State) (md reg scale index base addr c : Nat) : Delivery × Nat :=
  if base = 5 ∧ md = 0 then
    Reference.fetch s c 4 fun a32 c => Reference.finish s reg (referenceAddIndex s scale index addr + a32) c
  else Reference.finish s reg (referenceAddIndex s scale index addr + Reference.x s base) c

/-- Step 4 of the algorithm: the SIB byte, the displacement, then the other terms. -/
theorem reference_resolve_sib {s : State} {md : BitVec 2} {reg : RegIx} (h3 : md ≠ 3) (ha : 4 ≤ s.addressSize)
    (hm : s.supply 1 = some [packByte md reg 4]) :
    Reference.resolve s = Reference.fetch s (s.cursor + 1) 1 fun sib c =>
      if md.toNat = 1 ∨ md.toNat = 2 then
        Reference.fetch s c (3 * md.toNat - 2) fun d c =>
          referenceAddTerms s md.toNat reg.toNat (sib / 64) (sib / 8 % 8) (sib % 8) (0 + Reference.sext (3 * md.toNat - 2) d) c
      else referenceAddTerms s md.toNat reg.toNat (sib / 64) (sib / 8 % 8) (sib % 8) 0 c := by
  have hmd : md.toNat ≠ 3 := fun h => h3 (BitVec.eq_of_toNat_eq h)
  have hrm : ¬(4 : RegIx).toNat ≠ 4 := by decide
  rw [Reference.resolve, if_neg (Nat.not_lt.2 ha), reference_fetch_some _ hm]
  simp only [littleEndian_one, packByte_mod_eight, packByte_div_eight, packByte_div_sixtyFour]
  rw [if_neg hmd, if_neg hrm]
  rfl

/-- The return with a base register mirrors steps 4c to 4e where they add it: MOD is not 00 or base is not 101. -/
theorem mirrors_referenceAddTerms {s : State} {md k addr : Nat} {reg index base : RegIx} {scale : ScaleBits} {w : Word}
    (h : ¬(base.toNat = 5 ∧ md = 0)) (hw : BitVec.ofNat 32 addr + s.indexTerm index scale + s.reg base = w) :
    Mirrors s (returnOperands (memoryAt w) reg (s.accept.advance k))
      (referenceAddTerms s md reg.toNat scale.toNat index.toNat base.toNat addr (s.cursor + k)) := by
  rw [referenceAddTerms, if_neg h]
  exact mirrors_return (by rw [BitVec.ofNat_add, ofNat_referenceAddIndex, ofNat_x, hw])

/-- The SIB read and the form it selects mirror step 4 of the algorithm, which chooses by the same fields. -/
theorem mirrors_sib_form {s : State} {md : BitVec 2} {reg : RegIx} (h3 : md ≠ 3) (ha : 4 ≤ s.addressSize)
    (hm : s.supply 1 = some [packByte md reg 4]) :
    Mirrors s (fetchRead 1 (s.accept.advance 1) fun sib t => exec (decodeSib (packByte md reg 4) (BitVec.ofNat 8 sib)) t)
      (Reference.resolve s) := by
  rw [reference_resolve_sib h3 ha hm]
  refine mirrors_fetch fun bs hbs => ?_
  obtain ⟨b, rfl⟩ := State.supply_byte hbs
  obtain ⟨scale, index, base, rfl⟩ := exists_packByte b
  rw [littleEndian_one, BitVec.ofNat_toNat, BitVec.setWidth_eq, decodeSib_packByte]
  simp only [packByte_mod_eight, packByte_div_eight, packByte_div_sixtyFour]
  by_cases h1 : md = 1
  · subst h1
    rw [if_pos rfl, exec_sib_d8, if_pos (by decide)]
    exact mirrors_readDisp .mod1 rfl fun d => mirrors_referenceAddTerms (by simp) (by simp)
  by_cases h2 : md = 2
  · subst h2
    rw [if_neg h1, if_pos rfl, exec_sib_d32, if_pos (by decide)]
    exact mirrors_readDisp .mod2 rfl fun d => mirrors_referenceAddTerms (by simp) (by simp)
  obtain rfl := top_eq_zero md h3 h1 h2
  rw [if_neg h1, if_neg h2, if_neg (c := BitVec.toNat 0 = 1 ∨ BitVec.toNat 0 = 2) (by decide)]
  by_cases h5 : base = 5
  · subst h5
    rw [if_pos rfl, exec_sib_abs32, referenceAddTerms, if_pos (by decide)]
    refine mirrors_fetch fun bs hbs => ?_
    exact mirrors_return (by simp [BitVec.ofNat_add, ofNat_referenceAddIndex])
  · have hbase : base.toNat ≠ 5 := fun h => h5 (BitVec.eq_of_toNat_eq h)
    rw [if_neg h5, exec_sib_base]
    exact mirrors_referenceAddTerms (by simp [hbase]) (by simp)

/-- Settles O33: the mode check, the failing ModRM read, a form by itself and the SIB read mirror the algorithm. -/
theorem resolveIsTheAlgorithmOfR89 : Obligations.ResolveIsTheAlgorithmOfR89 := by
  intro s hq
  show Mirrors s (step s) (Reference.resolve s)
  rcases Nat.lt_or_ge s.addressSize 4 with ha | ha
  · rw [Reference.resolve, if_pos ha]
    exact step_unsupported hq ha
  cases hm : s.supply 1 with
  | none =>
    rw [Reference.resolve, if_neg (Nat.not_lt.2 ha), reference_fetch_none _ hm]
    exact step_modrm_missing hq ha hm
  | some bs =>
    obtain ⟨m, rfl⟩ := State.supply_byte hm
    cases hd : decodeModRM m with
    | some i =>
      rw [step_modrm_form hq ha hm hd]
      exact mirrors_modrm_form ha hm hd
    | none =>
      obtain ⟨h3, h4⟩ := decodeModRM_none hd
      obtain ⟨md, reg, rm, rfl⟩ := exists_packByte m
      rw [fieldTop_packByte] at h3
      obtain rfl : rm = 4 := (fieldLow_packByte ..).symm.trans h4
      rw [step_of_modrm hq ha hm, selectForm_none _ hd]
      exact mirrors_sib_form h3 ha hm

end Sys2Proof.Machine
end

section
/-! PROOFS. The statements about the bit primitives (spec/41_bit_primitives.md): the integer forms as operations on `8n`-bit patterns, the byte
buffer forms as filled buffers, then the three that deliver one bit. -/

namespace Sys2Proof.Machine

/-! ### Every primitive -/

/-- Settles O41: the select is reserved in every state, or the selected primitive answers alike in every state. -/
theorem primitivesArePureFunctions : Obligations.PrimitivesArePureFunctions := by
  intro c
  cases hc : decodePrim c with
  | error => exact .inr ⟨.primOpReserved, fun s hq => by rw [step_prim hq, evaluate, hc]⟩
  | ok i =>
    have hstep : ∀ s : State, s.request = some (.prim c) → step s = exec i s.accept := fun s hq => by rw [step_prim hq, evaluate, hc]
    obtain ⟨d, -, hne, hd⟩ | ⟨r, hr⟩ := exec_prim_cases (decodePrim_isForm hc)
    · exact .inl ⟨d, hne, fun s hq => (hstep s hq).trans (hd _)⟩
    · exact .inr ⟨r, fun s hq => (hstep s hq).trans (hr _)⟩

/-! ### The integer forms -/

theorem bits_pos (n : OpWidth) : 0 < n.bits := by cases n <;> decide

theorem exec_sextInt (value : Int) (n : OpWidth) (s : State) :
    exec (.sextInt value n) s = .next (s.answered (.integer (signExtendInt value n))) := rfl

/-- ZEXT_INT inside its domain delivers the extended value (41 R103). -/
theorem exec_zextInt_of_le {value : Int} {n : OpWidth} (s : State) (h : -(2 ^ (n.bits - 1) : Int) ≤ value) :
    exec (.zextInt value n) s = .next (s.answered (.integer (zeroExtendInt value n))) := if_neg (Int.not_lt.2 h)

theorem exec_zextInt_of_lt {value : Int} {n : OpWidth} (s : State) (h : value < -(2 ^ (n.bits - 1) : Int)) :
    exec (.zextInt value n) s = .refused .zeroExtendBelowRange := if_pos h

theorem signExtendInt_of_neg {value : Int} (n : OpWidth) (h : value < 0) : signExtendInt value n = value := if_pos h

theorem signExtendInt_natCast (p : Nat) (n : OpWidth) :
    signExtendInt p n = if p.testBit (n.bits - 1) then (p : Int) - 2 ^ n.bits else p := if_neg (Int.natCast_nonneg p).not_gt

theorem zeroExtendInt_of_nonneg {value : Int} (n : OpWidth) (h : 0 ≤ value) : zeroExtendInt value n = value := if_pos h

theorem zeroExtendInt_of_neg {value : Int} (n : OpWidth) (h : value < 0) : zeroExtendInt value n = value + 2 ^ n.bits :=
  if_neg (Int.not_le.2 h)

/-- `sign_extend` gives the signed value of an `8n`-bit pattern (41 R101). -/
theorem signExtendInt_toNat {n : OpWidth} (x : BitVec n.bits) : signExtendInt x.toNat n = x.toInt := by
  rw [signExtendInt_natCast, BitVec.toInt_eq_msb_cond, BitVec.msb_eq_getLsbD_last, Nat.cast_pow]
  rfl

/-- `zero_extend` gives the `8n`-bit pattern of an integer, read as an unsigned number (41 R103). -/
theorem zeroExtendInt_eq_toNat {x : Int} {n : OpWidth} (hlo : -(2 ^ n.bits : Int) ≤ x) (hhi : x < 2 ^ n.bits) :
    zeroExtendInt x n = (BitVec.ofInt n.bits x).toNat := by
  have hmod : x % 2 ^ n.bits = zeroExtendInt x n := by
    rcases lt_or_ge x 0 with h | h
    · rw [zeroExtendInt_of_neg n h, Int.emod_eq_add_self_emod, Int.emod_eq_of_lt (by omega) (by omega)]
    · rw [zeroExtendInt_of_nonneg n h, Int.emod_eq_of_lt h hhi]
  have hnonneg : 0 ≤ x % 2 ^ n.bits := Int.emod_nonneg _ (by positivity)
  rw [BitVec.toNat_ofInt, Nat.cast_pow, Nat.cast_ofNat, Int.toNat_of_nonneg hnonneg, hmod]

/-- The law of R108 on integers: the pattern of a representable integer has that integer as its signed value. -/
theorem signExtendInt_zeroExtendInt {x : Int} {n : OpWidth} (hlo : -(2 ^ (n.bits - 1) : Int) ≤ x) (hhi : x < 2 ^ (n.bits - 1)) :
    signExtendInt (zeroExtendInt x n) n = x := by
  have hhalf : (2 : Int) ^ (n.bits - 1) ≤ 2 ^ n.bits := pow_le_pow_right₀ (by decide) (Nat.sub_le _ _)
  rw [zeroExtendInt_eq_toNat (by omega) (by omega), signExtendInt_toNat, BitVec.toInt_ofInt_eq_self (bits_pos n) hlo hhi]

/-- Settles O49: the result on a pattern is its signed value, which has the range of `8n` bits and is what a wider port carries. -/
theorem sextIntSubtractsWhenTheSignBitIsSet : Obligations.SextIntSubtractsWhenTheSignBitIsSet := by
  intro s value n
  refine ⟨fun h => ?_, fun p hp hlt => ?_, _, exec_sextInt value n s⟩
  · rw [exec_sextInt, signExtendInt_of_neg n h]
  · subst hp
    have hsigned : signExtendInt p n = (BitVec.ofNat n.bits p).toInt := by
      rw [← signExtendInt_toNat, BitVec.toNat_ofNat, Nat.mod_eq_of_lt hlt]
    refine ⟨_, exec_sextInt p n s, signExtendInt_natCast p n, ?_⟩
    rw [hsigned]
    exact ⟨BitVec.le_toInt _, BitVec.toInt_lt, fun _ _ => rfl⟩

/-- Settles O52, one clause for each range of the value; a wider port carries a pattern with zeros above it. -/
theorem zextIntIsTheIdentityOnPatterns : Obligations.ZextIntIsTheIdentityOnPatterns := by
  intro s value n
  refine ⟨fun h => ?_, fun hlo h => ?_, exec_zextInt_of_lt s, fun w _ p hp => ?_⟩
  · rw [exec_zextInt_of_le s ((neg_nonpos.2 (by positivity)).trans h), zeroExtendInt_of_nonneg n h]
  · rw [exec_zextInt_of_le s hlo, zeroExtendInt_of_neg n h]
    rfl
  · rw [zeroExtendInt_of_nonneg n (Int.natCast_nonneg p), portPattern, BitVec.ofInt_natCast]
    refine BitVec.eq_of_toNat_eq ?_
    rw [BitVec.toNat_setWidth, BitVec.toNat_ofNat, BitVec.toNat_ofNat, Nat.mod_eq_of_lt hp]

/-! ### The byte-buffer forms -/

theorem exec_sextBuf_nil (n : OpWidth) (s : State) : exec (.sextBuf [] n) s = .refused .bufferEmpty := rfl
theorem exec_zextBuf_nil (n : OpWidth) (s : State) : exec (.zextBuf [] n) s = .refused .bufferEmpty := rfl

theorem withBuffer_tooLong {buf : List Byte} {n : OpWidth} (go : Answer) (h : n.bytes < buf.length) :
    withBuffer buf n go = .refused .bufferTooLong := by
  rw [withBuffer, if_neg (by omega), if_pos h]

/-- ZEXT_BUF inside its domain delivers the extended buffer (41 R104). -/
theorem exec_zextBuf_fits {buf : List Byte} {n : OpWidth} (s : State) (h1 : 1 ≤ buf.length) (h : buf.length ≤ n.bytes) :
    exec (.zextBuf buf n) s = .next (s.answered (.buffer (zeroExtendBuf buf n))) :=
  withBuffer_fits _ (Nat.one_le_iff_ne_zero.1 h1) h

theorem length_zeroExtendBuf {buf : List Byte} {n : OpWidth} (h : buf.length ≤ n.bytes) : (zeroExtendBuf buf n).length = n.bytes := by
  simp [zeroExtendBuf, h]

/-- Above its first bytes a filled buffer holds the fill. -/
theorem getElem?_filled_of_ge {buf : List Byte} {m k : Nat} (b : Byte) (hk : buf.length ≤ k) (hm : k < m) :
    (buf ++ List.replicate (m - buf.length) b)[k]? = some b := by
  rw [List.getElem?_append_right hk, List.getElem?_replicate_of_lt (by omega)]

/-- The sign of a buffer is bit 7 of its last byte (41 R102). -/
theorem signFill_concat (front : List Byte) (last : Byte) :
    signFill (front ++ [last]) = if 0x80 ≤ last.toNat then 0xFF else 0x00 := by
  rw [signFill, List.getLastD_concat]

/-- A buffer of the full width is filled with nothing. -/
theorem signExtendBuf_full {buf : List Byte} {n : OpWidth} (h : buf.length = n.bytes) : signExtendBuf buf n = buf := by
  simp [signExtendBuf, h]

theorem zeroExtendBuf_full {buf : List Byte} {n : OpWidth} (h : buf.length = n.bytes) : zeroExtendBuf buf n = buf := by
  simp [zeroExtendBuf, h]

/-- Zeros at the more significant end do not change the value of a buffer (41 R104). -/
theorem littleEndian_zeroExtendBuf (buf : List Byte) (n : OpWidth) : littleEndian (zeroExtendBuf buf n) = littleEndian buf := by
  rw [zeroExtendBuf, littleEndian_append, littleEndian_replicate_zero, Nat.mul_zero, Nat.add_zero]

/-- Settles O50: the delivered buffer is the argument and then the fill of its sign. -/
theorem sextBufFillsWithTheSign : Obligations.SextBufFillsWithTheSign := by
  refine ⟨fun s front last n h => ?_, fun s buf n => withBuffer_tooLong _⟩
  have hlen : (front ++ [last]).length = front.length + 1 := List.length_append
  refine ⟨_, exec_sextBuf_fits s (by omega) (by omega), length_signExtendBuf (by omega), fun k hk => ?_, fun k hk hn => ?_⟩
  · exact List.getElem?_append_left (by omega)
  · rw [← signFill_concat front last]
    exact getElem?_filled_of_ge _ (by omega) hn

/-- Settles O53: the delivered buffer is the argument and then zeros, which keep the value. -/
theorem zextBufPadsWithZeros : Obligations.ZextBufPadsWithZeros := by
  refine ⟨fun s buf n h1 h => ?_, fun s buf n => withBuffer_tooLong _⟩
  exact ⟨_, exec_zextBuf_fits s h1 h, length_zeroExtendBuf h, fun k => List.getElem?_append_left, fun k => getElem?_filled_of_ge 0x00,
    littleEndian_zeroExtendBuf buf n⟩

/-- Settles O54: both forms run under the same guard. -/
theorem buffersOutsideTheContractAreRefused : Obligations.BuffersOutsideTheContractAreRefused := by
  intro s buf n
  refine ⟨?_, fun h => ⟨withBuffer_tooLong _ h, withBuffer_tooLong _ h⟩, fun h1 h => ?_⟩
  · rintro rfl
    exact ⟨exec_sextBuf_nil n s, exec_zextBuf_nil n s⟩
  · exact ⟨⟨_, exec_sextBuf_fits s h1 h⟩, _, exec_zextBuf_fits s h1 h⟩

/-- Settles O58: on integers by the pattern between the two primitives, on buffers because neither adds a byte to a full one. -/
theorem signExtendUndoesZeroExtend : Obligations.SignExtendUndoesZeroExtend := by
  intro s n
  refine ⟨fun x hlo hhi => ⟨_, exec_zextInt_of_le s hlo, ?_⟩, fun buf h => ?_⟩
  · rw [exec_sextInt, signExtendInt_zeroExtendInt hlo (Int.lt_of_le_sub_one hhi)]
  · have h1 : 1 ≤ buf.length := by rw [h]; cases n <;> decide
    refine ⟨buf, ?_, ?_⟩
    · rw [exec_zextBuf_fits s h1 h.le, zeroExtendBuf_full h]
    · rw [exec_sextBuf_fits s h1 h.le, signExtendBuf_full h]

/-! ### Fields and single bits of a value -/

/-- Settles O6: each field is a shift and a remainder, and the three together are the byte's digits in mixed radix. -/
theorem fieldsRebuildTheByte : Obligations.FieldsRebuildTheByte := by
  intro v
  have hfield (lo len : Nat) : (v.extractLsb' lo len).toNat = v.toNat / 2 ^ lo % 2 ^ len := by
    rw [BitVec.extractLsb'_toNat, Nat.shiftRight_eq_div_pow]
  have hlow : (fieldLow v).toNat = v.toNat / 2 ^ 0 % 2 ^ 3 := hfield 0 3
  have hmid : (fieldMid v).toNat = v.toNat / 2 ^ 3 % 2 ^ 3 := hfield 3 3
  have htop : (fieldTop v).toNat = v.toNat / 2 ^ 6 % 2 ^ 2 := hfield 6 2
  exact ⟨hlow, hmid, htop, by omega⟩

theorem exec_parity_byte (b : Byte) (s : State) : exec (.parity b.toNat) s = .next (s.answered (.bit (parityEven b))) := by
  have hb : (0 : Int) ≤ b.toNat ∧ (b.toNat : Int) < 256 := ⟨Int.natCast_nonneg _, by exact_mod_cast b.isLt⟩
  rw [exec, execParity, if_pos hb, Int.toNat_natCast, BitVec.ofNat_toNat, BitVec.setWidth_eq]
  rfl

/-- One more element that is kept turns an even number of them odd, and an odd one even. -/
theorem even_length_filter_cons {α : Type} (p : α → Bool) (a : α) (l : List α) :
    decide (((a :: l).filter p).length % 2 = 0) = (p a ^^ decide ((l.filter p).length % 2 = 0)) := by
  cases h : p a
  · simp [h]
  · rw [List.filter_cons_of_pos h, List.length_cons, Bool.true_xor, ← decide_not]
    exact decide_eq_decide.2 (by omega)

/-- The exclusive-or of all bits and 1 is the evenness of their number (41 R105). -/
theorem parityEven_eq_even (b : Byte) :
    parityEven b = decide (((List.range 8).filter fun k => b.getLsbD k).length % 2 = 0) := by
  rw [show List.range 8 = [0, 1, 2, 3, 4, 5, 6, 7] from rfl]
  simp only [even_length_filter_cons]
  simp [parityEven, Bool.xor_comm]

/-- Settles O55: the bit delivered is the evenness of the set bits; the count is by evaluation of the 256 bytes. -/
theorem parityIsOneWhenTheBitsAreEven : Obligations.ParityIsOneWhenTheBitsAreEven :=
  ⟨fun s b => by rw [exec_parity_byte, parityEven_eq_even], rfl⟩

theorem exec_msb_natCast (v : Nat) (n : OpWidth) (s : State) : exec (.msb v n) s = .next (s.answered (.bit (msbOf v n))) := by
  rw [exec, execMsb, if_neg (Int.natCast_nonneg v).not_gt, Int.toNat_natCast]
  rfl

theorem exec_lsb_natCast (v : Nat) (n : OpWidth) (s : State) : exec (.lsb v n) s = .next (s.answered (.bit (lsbOf v n))) := by
  rw [exec, execLsb, if_neg (Int.natCast_nonneg v).not_gt, Int.toNat_natCast]
  rfl

/-- Bits above `8n-1` do not matter to `MSB` (41 R106). -/
theorem msbOf_mod (v : Nat) (n : OpWidth) : msbOf (v % 2 ^ n.bits) n = msbOf v n := by
  rw [msbOf, Nat.testBit_mod_two_pow, decide_eq_true (Nat.sub_lt (bits_pos n) Nat.one_pos), Bool.true_and, msbOf]

/-- Settles O56: the bit delivered is a bit of the value, whatever stands above it; the boundary values are the powers of two about it. -/
theorem msbIsBitEightNMinusOne : Obligations.MsbIsBitEightNMinusOne := by
  intro s n
  refine ⟨fun v => ⟨?_, ?_⟩, Nat.zero_testBit _, ?_, Nat.testBit_two_pow_self, ?_⟩
  · rw [exec_msb_natCast, msbOf, Nat.testBit_eq_decide_div_mod_eq]
    rfl
  · have hmod : msbOf (v % 2 ^ (8 * n.bytes)) n = msbOf v n := msbOf_mod v n
    rw [exec_msb_natCast, exec_msb_natCast, hmod]
  · exact (Nat.testBit_two_pow_sub_one _ _).trans (decide_eq_false (Nat.lt_irrefl _))
  · exact (Nat.testBit_two_pow_sub_one _ _).trans (decide_eq_true (Nat.sub_lt (bits_pos n) Nat.one_pos))

/-- Settles O57: bit 0 of a value is its remainder by 2. -/
theorem lsbIsBitZero : Obligations.LsbIsBitZero := by
  intro s v n
  rw [exec_lsb_natCast, lsbOf, Nat.testBit_zero]

/-- Settles O59: each guard refuses the values outside its domain. -/
theorem bytesOutsideTheStatedDomainAreRefused : Obligations.BytesOutsideTheStatedDomainAreRefused :=
  fun _ _ _ => ⟨fun h => if_neg (by omega), fun h => ⟨if_pos h, if_pos h⟩⟩

end Sys2Proof.Machine
end

section
/-! PROOFS. The statements about the two errors (spec/60_exceptions.md): the state a failed call leaves, and the numeric codes of the
outcomes. -/

namespace Sys2Proof.Machine

/-- Settles O46: a failed call changes the cursor and the delivery, and the next call does not read the delivery (R125, R126). -/
theorem blockIsReadyAfterAnError : Obligations.BlockIsReadyAfterAnError := by
  intro s t e q hq h hd
  obtain ⟨hidle, -⟩ | ⟨k, d, -, rfl⟩ := step_next h
  · cases hq.symm.trans hidle
  · cases hd
    have hnext := outcomeDoesNotDependOnHistory { s with request := some q, cursor := s.cursor + k } (some (.error e))
      (Option.some_ne_none q)
    exact ⟨rfl, hnext⟩

/-- Settles O60, at each kind of delivery: the two errors have a code of their own, everything else shares code 0 (R123). -/
theorem errorCodesAreOneAndTwo : Obligations.ErrorCodesAreOneAndTwo := by
  intro d
  cases d with
  | error e =>
    cases e with
    | unsupportedMode => simp [Delivery.code]
    | malformedStream => simp [Delivery.code]
  | operands | integer | buffer | bit => simp [Delivery.code]

end Sys2Proof.Machine
end
